-- ==== Sys2Proof/Word.lean ====
section
/-! DEFINITION. The words of the CHIP-8 core: bytes, 16-bit words, instruction fields, register and key
numbers (00_scope.md R6, R8; 30_encoding.md R71). All values are unsigned (R8). -/

namespace Sys2Proof

/-- A memory byte, a general register or a timer: 8 bits (R6). -/
abbrev Byte := BitVec 8

/-- The address register, the program counter, a stack entry or an instruction word: 16 bits (R6, R70). -/
abbrev Word := BitVec 16

/-- The field `nnn` (R71). -/
abbrev Addr12 := BitVec 12

/-- The fields `n`, `x`, `y` and the class as they stand in a word (R71). -/
abbrev Nibble := BitVec 4

/-- A general register's number, 0x0 to 0xF (10_state.md R21). -/
abbrev Reg := Fin 16

/-- A key's number, 0x0 to 0xF (10_state.md R30). -/
abbrev Key := Fin 16

/-- VF, the register that doubles as the flags output (10_state.md R22). -/
abbrev vF : Reg := 15

/-- Bytes of memory: addresses 0x000 to 0xFFF (R6 MEM_SIZE). -/
abbrev memSize : Nat := 4096

/-- Where a program image is copied and where execution begins (R6 PROGRAM_BASE). -/
abbrev programBase : Nat := 0x200

/-- The longest program image (R6 MAX_ROM). -/
abbrev maxRom : Nat := 3584

/-- The entries of the call stack (R6 STACK_DEPTH). -/
abbrev stackDepth : Nat := 16

end Sys2Proof
end

