-- ==== Sys2Proof/Config.lean ====
section
/-! DEFINITION. The open parameters of 00_scope.md R7. IPT, TICK_PERIOD, TIMERS_RUN_WHILE_AWAITING and FONT are
arguments (a `Config`) of the host events that read them, so a claim holds for every value it does not fix.
The random byte of Cxkk is a free value: `Config.rngDraw` has no body. -/

namespace Sys2Proof

/-- The parameters R7 leaves open; they are no state (10_state.md R20). -/
structure Config where
  /-- IPT, instruction steps per frame (60_exceptions.md R246). -/
  ipt : Nat
  /-- TICK_PERIOD (60_exceptions.md R243), in the model's unit of time, 1/60 of a nanosecond
  (DESIGN CHOICE, notes/assumptions/3.md; 92_eei_decisions.md D39 allows naturals in a fixed unit). -/
  tickPeriod : Nat
  /-- TIMERS_RUN_WHILE_AWAITING, which the spec leaves OPEN with no default (60_exceptions.md R241, D3). -/
  timersRunWhileAwaiting : Bool
  /-- FONT, the 80 bytes `load` copies to 0x000 (10_state.md R31). -/
  font : Vector Byte 80
  /-- R7: IPT is at least 1. -/
  ipt_pos : 1 ≤ ipt
  /-- R7: TICK_PERIOD is positive. -/
  tickPeriod_pos : 1 ≤ tickPeriod

/-- The byte the random source gives at the `n`-th draw: a FREE VALUE, any byte, no law (41_alu.md R148,
92_eei_decisions.md D24; notes/assumptions/1.md). -/
opaque Config.rngDraw : Nat → Byte

end Sys2Proof
end

