-- ==== Sys2Proof/Syntax.lean ====
section
/-! DEFINITION. The instructions: one constructor for each of the 35 rows of 30_encoding.md R76
(spec/opcode_table.json), in the table's order. -/

namespace Sys2Proof

/-- The instruction set of R76. The fields are those of R71: `x` and `y` register numbers, `kk` an immediate
byte, `nnn` a 12-bit address, `n` a row count. -/
inductive Instr where
  | cls                              -- 00E0  CLS
  | ret                              -- 00EE  RET
  | sys (nnn : Addr12)               -- 0nnn  SYS nnn
  | jp (nnn : Addr12)                -- 1nnn  JP nnn
  | call (nnn : Addr12)              -- 2nnn  CALL nnn
  | seImm (x : Reg) (kk : Byte)      -- 3xkk  SE Vx, kk
  | sneImm (x : Reg) (kk : Byte)     -- 4xkk  SNE Vx, kk
  | seReg (x y : Reg)                -- 5xy0  SE Vx, Vy
  | ldImm (x : Reg) (kk : Byte)      -- 6xkk  LD Vx, kk
  | addImm (x : Reg) (kk : Byte)     -- 7xkk  ADD Vx, kk
  | ldReg (x y : Reg)                -- 8xy0  LD Vx, Vy
  | orReg (x y : Reg)                -- 8xy1  OR Vx, Vy
  | andReg (x y : Reg)               -- 8xy2  AND Vx, Vy
  | xorReg (x y : Reg)               -- 8xy3  XOR Vx, Vy
  | addReg (x y : Reg)               -- 8xy4  ADD Vx, Vy
  | subReg (x y : Reg)               -- 8xy5  SUB Vx, Vy
  | shr (x y : Reg)                  -- 8xy6  SHR Vx
  | subnReg (x y : Reg)              -- 8xy7  SUBN Vx, Vy
  | shl (x y : Reg)                  -- 8xyE  SHL Vx
  | sneReg (x y : Reg)               -- 9xy0  SNE Vx, Vy
  | ldI (nnn : Addr12)               -- Annn  LD I, nnn
  | jpV0 (nnn : Addr12)              -- Bnnn  JP V0, nnn
  | rnd (x : Reg) (kk : Byte)        -- Cxkk  RND Vx, kk
  | drw (x y : Reg) (n : Nibble)     -- Dxyn  DRW Vx, Vy, n
  | skp (x : Reg)                    -- Ex9E  SKP Vx
  | sknp (x : Reg)                   -- ExA1  SKNP Vx
  | ldVxDt (x : Reg)                 -- Fx07  LD Vx, DT
  | ldVxK (x : Reg)                  -- Fx0A  LD Vx, K
  | ldDtVx (x : Reg)                 -- Fx15  LD DT, Vx
  | ldStVx (x : Reg)                 -- Fx18  LD ST, Vx
  | addIVx (x : Reg)                 -- Fx1E  ADD I, Vx
  | ldFVx (x : Reg)                  -- Fx29  LD F, Vx
  | ldBVx (x : Reg)                  -- Fx33  LD B, Vx
  | ldMemVx (x : Reg)                -- Fx55  LD [I], Vx
  | ldVxMem (x : Reg)                -- Fx65  LD Vx, [I]
  deriving DecidableEq, Repr

end Sys2Proof
end

