-- ==== Sys2Proof/Decode.lean ====
section
/-! DEFINITION. Decoding and encoding (30_encoding.md): the fields of R71, the dispatch of R74 and R75, the
opcode table of R76, the illegal words of R77. Decoding reads only the word (R79) and is total. -/

namespace Sys2Proof

/-- Why a word is no instruction: R77's `IllegalOpcode` with the word. -/
inductive DecodeError where
  | illegalOpcode (opcode : Word)
  deriving DecidableEq, Repr

/-! ### Fields (R71) -/

/-- A register number from its four bits. -/
def regOfBits (b : Nibble) : Reg := b.toFin

/-- The four bits of a register number. -/
def bitsOfReg (r : Reg) : Nibble := BitVec.ofFin r

/-- The opcode class, `op[15:12]`. -/
def fieldClass (op : Word) : Nibble := op.extractLsb' 12 4

/-- The field x, `op[11:8]`. -/
def fieldX (op : Word) : Reg := regOfBits (op.extractLsb' 8 4)

/-- The field y, `op[7:4]`. -/
def fieldY (op : Word) : Reg := regOfBits (op.extractLsb' 4 4)

/-- The field n, `op[3:0]`. -/
def fieldN (op : Word) : Nibble := op.extractLsb' 0 4

/-- The field kk, `op[7:0]`. -/
def fieldKK (op : Word) : Byte := op.extractLsb' 0 8

/-- The field nnn, `op[11:0]`. -/
def fieldNNN (op : Word) : Addr12 := op.extractLsb' 0 12

/-- A word from its two bytes in memory order: the first byte is bits 15 to 8 (20_memory.md R50). -/
def wordOfBytes (first second : Byte) : Word := first ++ second

/-- The byte of a word that is stored first: bits 15 to 8 (R50). -/
def firstByte (op : Word) : Byte := op.extractLsb' 8 8

/-- The byte of a word that is stored second: bits 7 to 0 (R50). -/
def secondByte (op : Word) : Byte := op.extractLsb' 0 8

/-! ### Decoding -/

/-- Class 0: the two fixed words are tried first, every other word is SYS (R75). -/
def decodeClass0 (op : Word) : Instr :=
  if op = 0x00E0#16 then .cls else if op = 0x00EE#16 then .ret else .sys (fieldNNN op)

/-- Classes 5 and 9: one instruction, whose low nibble is 0 (R74, R77). -/
def decodeZeroNibble (op : Word) (i : Instr) : Except DecodeError Instr :=
  if fieldN op = 0#4 then .ok i else .error (.illegalOpcode op)

/-- Class 8: the sub-opcode is n (R74, R76 rows 11 to 19). -/
def decodeClass8 (op : Word) : Except DecodeError Instr :=
  match (fieldN op).toNat with
  | 0x0 => .ok (.ldReg (fieldX op) (fieldY op))
  | 0x1 => .ok (.orReg (fieldX op) (fieldY op))
  | 0x2 => .ok (.andReg (fieldX op) (fieldY op))
  | 0x3 => .ok (.xorReg (fieldX op) (fieldY op))
  | 0x4 => .ok (.addReg (fieldX op) (fieldY op))
  | 0x5 => .ok (.subReg (fieldX op) (fieldY op))
  | 0x6 => .ok (.shr (fieldX op) (fieldY op))
  | 0x7 => .ok (.subnReg (fieldX op) (fieldY op))
  | 0xE => .ok (.shl (fieldX op) (fieldY op))
  | _ => .error (.illegalOpcode op)

/-- Class E: the sub-opcode is kk (R74, R76 rows 25 and 26). -/
def decodeClassE (op : Word) : Except DecodeError Instr :=
  match (fieldKK op).toNat with
  | 0x9E => .ok (.skp (fieldX op))
  | 0xA1 => .ok (.sknp (fieldX op))
  | _ => .error (.illegalOpcode op)

/-- Class F: the sub-opcode is kk (R74, R76 rows 27 to 35). -/
def decodeClassF (op : Word) : Except DecodeError Instr :=
  match (fieldKK op).toNat with
  | 0x07 => .ok (.ldVxDt (fieldX op))
  | 0x0A => .ok (.ldVxK (fieldX op))
  | 0x15 => .ok (.ldDtVx (fieldX op))
  | 0x18 => .ok (.ldStVx (fieldX op))
  | 0x1E => .ok (.addIVx (fieldX op))
  | 0x29 => .ok (.ldFVx (fieldX op))
  | 0x33 => .ok (.ldBVx (fieldX op))
  | 0x55 => .ok (.ldMemVx (fieldX op))
  | 0x65 => .ok (.ldVxMem (fieldX op))
  | _ => .error (.illegalOpcode op)

/-- The decoder: by class, then by the class's sub-opcode (R74 to R77, R79). -/
def decode (op : Word) : Except DecodeError Instr :=
  match (fieldClass op).toNat with
  | 0x0 => .ok (decodeClass0 op)
  | 0x1 => .ok (.jp (fieldNNN op))
  | 0x2 => .ok (.call (fieldNNN op))
  | 0x3 => .ok (.seImm (fieldX op) (fieldKK op))
  | 0x4 => .ok (.sneImm (fieldX op) (fieldKK op))
  | 0x5 => decodeZeroNibble op (.seReg (fieldX op) (fieldY op))
  | 0x6 => .ok (.ldImm (fieldX op) (fieldKK op))
  | 0x7 => .ok (.addImm (fieldX op) (fieldKK op))
  | 0x8 => decodeClass8 op
  | 0x9 => decodeZeroNibble op (.sneReg (fieldX op) (fieldY op))
  | 0xA => .ok (.ldI (fieldNNN op))
  | 0xB => .ok (.jpV0 (fieldNNN op))
  | 0xC => .ok (.rnd (fieldX op) (fieldKK op))
  | 0xD => .ok (.drw (fieldX op) (fieldY op) (fieldN op))
  | 0xE => decodeClassE op
  | _ => decodeClassF op

/-! ### Encoding: the formats of R72 -/

/-- Format ADDR: `cccc aaaa aaaa aaaa`. -/
def encodeAddr (c : Nibble) (nnn : Addr12) : Word := c ++ nnn

/-- Formats XKK and X: `cccc xxxx` and a byte, the immediate or the sub-opcode. -/
def encodeXKK (c : Nibble) (x : Reg) (kk : Byte) : Word := (c ++ bitsOfReg x) ++ kk

/-- Formats XY and XYN: `cccc xxxx yyyy` and a nibble, the sub-opcode or the row count. -/
def encodeXYN (c : Nibble) (x y : Reg) (n : Nibble) : Word := (c ++ bitsOfReg x) ++ (bitsOfReg y ++ n)

/-- The word of an instruction (R72, R76). -/
def encode : Instr → Word
  | .cls => 0x00E0#16
  | .ret => 0x00EE#16
  | .sys nnn => encodeAddr 0x0#4 nnn
  | .jp nnn => encodeAddr 0x1#4 nnn
  | .call nnn => encodeAddr 0x2#4 nnn
  | .seImm x kk => encodeXKK 0x3#4 x kk
  | .sneImm x kk => encodeXKK 0x4#4 x kk
  | .seReg x y => encodeXYN 0x5#4 x y 0x0#4
  | .ldImm x kk => encodeXKK 0x6#4 x kk
  | .addImm x kk => encodeXKK 0x7#4 x kk
  | .ldReg x y => encodeXYN 0x8#4 x y 0x0#4
  | .orReg x y => encodeXYN 0x8#4 x y 0x1#4
  | .andReg x y => encodeXYN 0x8#4 x y 0x2#4
  | .xorReg x y => encodeXYN 0x8#4 x y 0x3#4
  | .addReg x y => encodeXYN 0x8#4 x y 0x4#4
  | .subReg x y => encodeXYN 0x8#4 x y 0x5#4
  | .shr x y => encodeXYN 0x8#4 x y 0x6#4
  | .subnReg x y => encodeXYN 0x8#4 x y 0x7#4
  | .shl x y => encodeXYN 0x8#4 x y 0xE#4
  | .sneReg x y => encodeXYN 0x9#4 x y 0x0#4
  | .ldI nnn => encodeAddr 0xA#4 nnn
  | .jpV0 nnn => encodeAddr 0xB#4 nnn
  | .rnd x kk => encodeXKK 0xC#4 x kk
  | .drw x y n => encodeXYN 0xD#4 x y n
  | .skp x => encodeXKK 0xE#4 x 0x9E#8
  | .sknp x => encodeXKK 0xE#4 x 0xA1#8
  | .ldVxDt x => encodeXKK 0xF#4 x 0x07#8
  | .ldVxK x => encodeXKK 0xF#4 x 0x0A#8
  | .ldDtVx x => encodeXKK 0xF#4 x 0x15#8
  | .ldStVx x => encodeXKK 0xF#4 x 0x18#8
  | .addIVx x => encodeXKK 0xF#4 x 0x1E#8
  | .ldFVx x => encodeXKK 0xF#4 x 0x29#8
  | .ldBVx x => encodeXKK 0xF#4 x 0x33#8
  | .ldMemVx x => encodeXKK 0xF#4 x 0x55#8
  | .ldVxMem x => encodeXKK 0xF#4 x 0x65#8

/-! ### The opcode table of R76, as masks and match values -/

/-- A row of R76: a word belongs to the row when `op AND mask = value`. -/
structure OpcodeRow where
  value : Word
  mask : Word
  deriving DecidableEq, Repr

/-- The row of R76 an instruction stands in. Row 3 (SYS) holds only words that rows 1 and 2 do not (R75). -/
def Instr.row : Instr → OpcodeRow
  | .cls => ⟨0x00E0, 0xFFFF⟩
  | .ret => ⟨0x00EE, 0xFFFF⟩
  | .sys _ => ⟨0x0000, 0xF000⟩
  | .jp _ => ⟨0x1000, 0xF000⟩
  | .call _ => ⟨0x2000, 0xF000⟩
  | .seImm _ _ => ⟨0x3000, 0xF000⟩
  | .sneImm _ _ => ⟨0x4000, 0xF000⟩
  | .seReg _ _ => ⟨0x5000, 0xF00F⟩
  | .ldImm _ _ => ⟨0x6000, 0xF000⟩
  | .addImm _ _ => ⟨0x7000, 0xF000⟩
  | .ldReg _ _ => ⟨0x8000, 0xF00F⟩
  | .orReg _ _ => ⟨0x8001, 0xF00F⟩
  | .andReg _ _ => ⟨0x8002, 0xF00F⟩
  | .xorReg _ _ => ⟨0x8003, 0xF00F⟩
  | .addReg _ _ => ⟨0x8004, 0xF00F⟩
  | .subReg _ _ => ⟨0x8005, 0xF00F⟩
  | .shr _ _ => ⟨0x8006, 0xF00F⟩
  | .subnReg _ _ => ⟨0x8007, 0xF00F⟩
  | .shl _ _ => ⟨0x800E, 0xF00F⟩
  | .sneReg _ _ => ⟨0x9000, 0xF00F⟩
  | .ldI _ => ⟨0xA000, 0xF000⟩
  | .jpV0 _ => ⟨0xB000, 0xF000⟩
  | .rnd _ _ => ⟨0xC000, 0xF000⟩
  | .drw _ _ _ => ⟨0xD000, 0xF000⟩
  | .skp _ => ⟨0xE09E, 0xF0FF⟩
  | .sknp _ => ⟨0xE0A1, 0xF0FF⟩
  | .ldVxDt _ => ⟨0xF007, 0xF0FF⟩
  | .ldVxK _ => ⟨0xF00A, 0xF0FF⟩
  | .ldDtVx _ => ⟨0xF015, 0xF0FF⟩
  | .ldStVx _ => ⟨0xF018, 0xF0FF⟩
  | .addIVx _ => ⟨0xF01E, 0xF0FF⟩
  | .ldFVx _ => ⟨0xF029, 0xF0FF⟩
  | .ldBVx _ => ⟨0xF033, 0xF0FF⟩
  | .ldMemVx _ => ⟨0xF055, 0xF0FF⟩
  | .ldVxMem _ => ⟨0xF065, 0xF0FF⟩

/-- Does a word fit a row of R76? -/
def OpcodeRow.fits (r : OpcodeRow) (op : Word) : Bool := op &&& r.mask == r.value

/-- One instruction of each row of R76, rows 1 to 19. -/
def rowExamplesLow : List Instr :=
  [.cls, .ret, .sys 0#12, .jp 0#12, .call 0#12, .seImm 0 0#8, .sneImm 0 0#8, .seReg 0 0, .ldImm 0 0#8,
   .addImm 0 0#8, .ldReg 0 0, .orReg 0 0, .andReg 0 0, .xorReg 0 0, .addReg 0 0, .subReg 0 0, .shr 0 0,
   .subnReg 0 0, .shl 0 0]

/-- One instruction of each row of R76, rows 20 to 35. -/
def rowExamplesHigh : List Instr :=
  [.sneReg 0 0, .ldI 0#12, .jpV0 0#12, .rnd 0 0#8, .drw 0 0 0#4, .skp 0, .sknp 0, .ldVxDt 0, .ldVxK 0,
   .ldDtVx 0, .ldStVx 0, .addIVx 0, .ldFVx 0, .ldBVx 0, .ldMemVx 0, .ldVxMem 0]

/-- The 35 rows of R76, in the table's order. -/
def opcodeTable : List OpcodeRow := (rowExamplesLow ++ rowExamplesHigh).map Instr.row

/-! ### The host's question: a word numbered as spec/opcode_table.json numbers it -/

/-- The instruction word given as `nbits` bits of `w` (bit 0 the least significant bit of the word); the bits
above `nbits` are 0. -/
def tableWord (nbits w : Nat) : Word := BitVec.ofNat 16 (w % 2 ^ nbits)

/-- The instruction the decoder reads from that word, laid out in memory as the hardware stores it (R50). -/
def decodeTableWord (nbits w : Nat) : Option Instr :=
  let op := tableWord nbits w
  (decode (wordOfBytes (firstByte op) (secondByte op))).toOption

end Sys2Proof
end

