-- ==== Sys2Proof/Machine/Font.lean ====
section
/-! DEFINITION. The default FONT (10_state.md R31, 92_eei_decisions.md D8) and the parameters' defaults
(00_scope.md R7). -/

namespace Sys2Proof.Machine

/-- Glyphs 0 to 7 of the default font, five rows each, top to bottom, leftmost pixel in bit 7 (R31). -/
def fontLow : List Byte :=
  [0xF0, 0x90, 0x90, 0x90, 0xF0,
   0x20, 0x60, 0x20, 0x20, 0x70,
   0xF0, 0x10, 0xF0, 0x80, 0xF0,
   0xF0, 0x10, 0xF0, 0x10, 0xF0,
   0x90, 0x90, 0xF0, 0x10, 0x10,
   0xF0, 0x80, 0xF0, 0x10, 0xF0,
   0xF0, 0x80, 0xF0, 0x90, 0xF0,
   0xF0, 0x10, 0x20, 0x40, 0x40]

/-- Glyphs 8 to F of the default font (R31). -/
def fontHigh : List Byte :=
  [0xF0, 0x90, 0xF0, 0x90, 0xF0,
   0xF0, 0x90, 0xF0, 0x10, 0xF0,
   0xF0, 0x90, 0xF0, 0x90, 0x90,
   0xE0, 0x90, 0xE0, 0x90, 0xE0,
   0xF0, 0x80, 0x80, 0x80, 0xF0,
   0xE0, 0x90, 0x90, 0x90, 0xE0,
   0xF0, 0x80, 0xF0, 0x80, 0xF0,
   0xF0, 0x80, 0xF0, 0x80, 0x80]

/-- The 80 bytes of the default FONT: glyph d at 5·d to 5·d + 4 (R31). -/
def defaultFontBytes : List Byte := fontLow ++ fontHigh

/-- The default FONT as the parameter's value. -/
def defaultFont : Vector Byte 80 := ⟨defaultFontBytes.toArray, by decide⟩

/-- The parameters at their defaults: IPT 15, TICK_PERIOD 1/60 s (10^9 units of 1/60 nanosecond), the default
FONT. TIMERS_RUN_WHILE_AWAITING has no default (R7) and is the argument. -/
def defaultConfig (timersRunWhileAwaiting : Bool) : Config where
  ipt := 15
  tickPeriod := 1000000000
  timersRunWhileAwaiting := timersRunWhileAwaiting
  font := defaultFont
  ipt_pos := by decide
  tickPeriod_pos := by decide

end Sys2Proof.Machine
end

