-- ==== Sys2Proof/Machine/State.lean ====
section
/-! DEFINITION. The state of the block: the record of 10_state.md R20 as plain data, the fault record of R32, the
reset state of R35, and the ways a step can stop. -/

namespace Sys2Proof.Machine

/-- The spec's error kinds (60_exceptions.md R230). An execution-time kind is RECORDED in `State.fault` and the
step answers a next state (R232); none of them ends the model's run. -/
inductive FaultKind where
  /-- The fetched word matches no instruction (30_encoding.md R77). Its opcode is the record's. -/
  | illegalOpcode
  /-- CALL with 16 return addresses on the stack (40_control_flow.md R105). -/
  | stackOverflow
  /-- RET with an empty stack (40_control_flow.md R106). -/
  | stackUnderflow
  /-- A fetch, or an access of Dxyn, Fx33, Fx55 or Fx65, above 0xFFF (20_memory.md R52). -/
  | memoryOutOfRange
  /-- Ex9E or ExA1 with V[x] above 0x0F (44_keyboard_timers.md R211). -/
  | keyIndexOutOfRange
  /-- `load` of more than 3584 bytes (R253): never recorded, the image is rejected. -/
  | programTooLarge
  deriving DecidableEq, Repr

/-- The sticky fatal-error record: kind, pc of the faulting instruction, its word or none when the fetch itself
faulted (10_state.md R32). -/
structure FaultRecord where
  kind : FaultKind
  pc : Word
  opcode : Option Word
  deriving DecidableEq, Repr

/-- Memory as the listed cells: addresses strictly rising, no cell equal to what an unlisted address reads as
(notes/assumptions/8.md). -/
abbrev Memory := List Host.Cell

/-- The display surface: 32 rows of 64 cells, true = lit (10_state.md R29). -/
abbrev Display := Vector (Vector Bool 64) 32

/-- The state of the block (10_state.md R20). -/
structure State where
  /-- `mem` (R31). -/
  mem : Memory
  /-- `V[0..15]` (R21). -/
  v : Vector Byte 16
  /-- `I` (R23). -/
  i : Word
  /-- `pc` (R24). -/
  pc : Word
  /-- `sp`, the return addresses on the stack; 0 to 16 in every reachable state (R25). -/
  sp : Byte
  /-- `stack[0..15]` (R26). -/
  stack : Vector Word 16
  /-- `DT` (R28). -/
  dt : Byte
  /-- `ST` (R28). -/
  st : Byte
  /-- `disp` (R29). -/
  disp : Display
  /-- `keys[0..15]`, true = held (R30). -/
  keys : Vector Bool 16
  /-- `wait`, the register a key capture will write, while the core waits in Fx0A (R27). -/
  wait : Option Reg
  /-- `paused` (R27). -/
  paused : Bool
  /-- `fault` (R32). -/
  fault : Option FaultRecord
  /-- `lag`, in units of 1/60 nanosecond (R33; notes/assumptions/3.md). -/
  lag : Nat
  /-- The model's own field: the random bytes drawn so far (notes/assumptions/1.md). -/
  rngDraws : Nat
  deriving DecidableEq, Repr

/-- Why the MODEL stops. No reachable state makes a step stop so. -/
inductive Fault where
  /-- Raised by CALL and RET in a state with `sp` above 16, which 10_state.md R25 says no run reaches and for which
  the spec gives no stack entry. SAFE: the model stops (notes/assumptions/5.md). -/
  | stackPointerOutOfRange
  deriving DecidableEq, Repr

/-- What the model gives no meaning. -/
inductive Refusal where
  /-- Raised by an arm of `exec` whose instruction has no meaning yet. SAFE. No arm of this model does. -/
  | notModelled (mnemonic : String)
  /-- Raised by the host event `key_down` or `key_up` with a key number above 15, which "is not an event of this
  block; a model refuses it" (60_exceptions.md R257). SAFE. No step does. -/
  | notAnEvent (key : Nat)
  deriving DecidableEq, Repr

/-- What a step can report (00_scope.md R12). -/
inductive StepReport where
  | executed
  | waiting
  | paused
  | halted
  | fault (kind : FaultKind)
  deriving DecidableEq, Repr

/-- The status output (00_scope.md R10; the modes of 10_state.md R27). -/
inductive Status where
  | running
  | paused
  | awaitingKey (x : Reg)
  | faulted (record : FaultRecord)
  deriving DecidableEq, Repr

/-- The machine right after reset: the load of the empty program image with the default FONT
(10_state.md R35, 70_reset_and_hazards.md R270; notes/assumptions/2.md). -/
def State.reset : State where
  mem := []
  v := Vector.replicate 16 0x00
  i := 0x0000
  pc := 0x200
  sp := 0
  stack := Vector.replicate 16 0x0000
  dt := 0
  st := 0
  disp := Vector.replicate 32 (Vector.replicate 64 false)
  keys := Vector.replicate 16 false
  wait := none
  paused := false
  fault := none
  lag := 0
  rngDraws := 0

end Sys2Proof.Machine
end

