-- ==== Sys2Proof/Machine/Ops.lean ====
section
/-! DEFINITION. The operations over memory, registers, the program counter, the stack and the fault record that
every meaning uses (00_scope.md R9). -/

namespace Sys2Proof.Machine

/-- What an instruction, a step or a frame answers. -/
abbrev Result := Host.Outcome State Fault Refusal

/-- Go on from a next state; a stop stays a stop. -/
def Result.andThen (r : Result) (f : State → Result) : Result :=
  match r with
  | .next s => f s
  | .fault e => .fault e
  | .refused e => .refused e

/-- An index among sixteen (a register, a key, a stack entry); every use is below 16. -/
def fin16 (n : Nat) : Fin 16 := ⟨n % 16, Nat.mod_lt n (by decide)⟩

/-! ### Memory (20_memory.md) -/

/-- What an address that is not listed reads as: the contents `load` gives, the default FONT at 0x000 and 0x00
above it (10_state.md R35; notes/assumptions/8.md). -/
def Memory.blank (a : Nat) : Byte := defaultFontBytes.getD a 0x00

/-- The byte at an address. -/
def Memory.read (m : Memory) (a : Nat) : Byte :=
  match m with
  | [] => Memory.blank a
  | (k, b) :: t => if k = a then b else Memory.read t a

/-- The cells but the one at an address. -/
def Memory.erase (m : Memory) (a : Nat) : Memory := m.filter (fun p => p.1 != a)

/-- A cell put before the first cell of a higher address. -/
def Memory.insertCell (m : Memory) (a : Nat) (b : Byte) : Memory :=
  match m with
  | [] => [(a, b)]
  | (k, c) :: t => if a < k then (a, b) :: (k, c) :: t else (k, c) :: Memory.insertCell t a b

/-- Store a byte, keeping the canonical form: the value an unlisted address reads as leaves no cell. -/
def Memory.write (m : Memory) (a : Nat) (b : Byte) : Memory :=
  if b = Memory.blank a then m.erase a else (m.erase a).insertCell a b

/-- The canonical form: addresses strictly rising and below 0x1000, no cell equal to what an unlisted address
reads as. -/
abbrev Memory.wf (m : Memory) : Prop :=
  m.Pairwise (fun p q => p.1 < q.1) ∧ ∀ p ∈ m, p.1 < memSize ∧ p.2 ≠ Memory.blank p.1

/-- The bytes at `base`, `base + 1`, …, `n` of them, in rising order. -/
def Memory.readBlock (m : Memory) (base n : Nat) : List Byte := (List.range n).map (fun k => m.read (base + k))

/-- Store the bytes at `base`, `base + 1`, … in rising order. -/
def Memory.writeBlock (m : Memory) (base : Nat) (bs : List Byte) : Memory :=
  match bs with
  | [] => m
  | b :: rest => Memory.writeBlock (m.write base b) (base + 1) rest

/-- R52: every address of the access set `base`, …, `base + n - 1` is in 0x000 to 0xFFF. The set is empty when
`n = 0`, and addresses do not wrap. -/
def accessInRange (base n : Nat) : Bool := n == 0 || decide (base + n ≤ memSize)

/-- A data read of `n` bytes from `base`: none when any address is out of range (R52). -/
def State.loadBytes (s : State) (base n : Nat) : Option (List Byte) :=
  if accessInRange base n then some (s.mem.readBlock base n) else none

/-- A data write of bytes from `base`: none, and nothing written, when any address is out of range (R52). -/
def State.storeBytes (s : State) (base : Nat) (bs : List Byte) : Option State :=
  if accessInRange base bs.length then some { s with mem := s.mem.writeBlock base bs } else none

/-! ### Registers (10_state.md R21) -/

/-- `V[x]`. -/
def State.readV (s : State) (x : Reg) : Byte := s.v[x]

/-- `V[x] <- b`. -/
def State.writeV (s : State) (x : Reg) (b : Byte) : State := { s with v := s.v.set x b }

/-- `V[k] <- b₀`, `V[k+1] <- b₁`, … (the loop of Fx65, 42_index_memory.md R165). -/
def State.writeVs (s : State) (k : Nat) (bs : List Byte) : State :=
  match bs with
  | [] => s
  | b :: rest => State.writeVs (s.writeV (fin16 k) b) (k + 1) rest

/-- `I <- a`. -/
def State.setI (s : State) (a : Word) : State := { s with i := a }

/-! ### Next pc (40_control_flow.md R102) -/

/-- The uniform increment, mod 2^16. -/
def State.fallThrough (s : State) : State := { s with pc := s.pc + 2 }

/-- `pc <- target`: no increment. -/
def State.jumpTo (s : State) (target : Word) : State := { s with pc := target }

/-- `skip` when the condition holds: pc + 4, else pc + 2, mod 2^16 (R102, R112). -/
def State.skipIf (s : State) (cond : Bool) : State := if cond then s.jumpTo (s.pc + 4) else s.fallThrough

/-! ### Faults (60_exceptions.md) -/

/-- Fault entry (R232): only `fault` changes, to the kind, the pc of the faulting instruction and its word (none
for a fetch fault). -/
def State.raise (s : State) (kind : FaultKind) (opcode : Option Word) : State :=
  { s with fault := some ⟨kind, s.pc, opcode⟩ }

/-- `raise E` inside an instruction's meaning: its word is recorded, and none of its writes commit, since `s` is
the state before the instruction (R9, R232; notes/assumptions/6.md). -/
def State.raiseIn (s : State) (ins : Instr) (kind : FaultKind) : Result :=
  .next (s.raise kind (some (encode ins)))

/-! ### The call stack (10_state.md R25, R26) -/

/-- `stack[j]`. -/
def State.stackEntry (s : State) (j : Fin 16) : Word := s.stack[j]

/-- `stack[sp] <- ret; sp <- sp + 1`, for `sp` below 16. -/
def State.push (s : State) (ret : Word) : State :=
  { s with stack := s.stack.set (fin16 s.sp.toNat) ret, sp := s.sp + 1 }

/-- `sp <- sp - 1`, for `sp` from 1 to 16. The entry keeps its value (R26, 40_control_flow.md R106). -/
def State.pop (s : State) : State := { s with sp := s.sp - 1 }

/-- The entry a RET reads: `stack[sp - 1]`, for `sp` from 1 to 16. -/
def State.stackTop (s : State) : Word := s.stackEntry (fin16 (s.sp.toNat - 1))

/-! ### Random bytes (41_alu.md R148) -/

/-- `draw_rng()`: the byte of the next draw, a free value (R148; notes/assumptions/1.md). -/
def State.nextDraw (s : State) : Byte := Config.rngDraw s.rngDraws

/-- The state after a draw: the next draw is another one. -/
def State.afterDraw (s : State) : State := { s with rngDraws := s.rngDraws + 1 }

/-! ### Fetch (40_control_flow.md R100, R101) -/

/-- `fetch(pc)`: none when pc is above 0xFFE, else the big-endian word at pc (R101, 20_memory.md R50). -/
def State.fetch (s : State) : Option Word :=
  if s.pc.toNat ≤ 0xFFE then some (wordOfBytes (s.mem.read s.pc.toNat) (s.mem.read (s.pc.toNat + 1))) else none

/-- Fetch, then decode; the fault kind and the opcode to record when one of them raises (R100, R234). -/
def State.fetchDecode (s : State) : Except (FaultKind × Option Word) Instr :=
  match s.fetch with
  | none => .error (.memoryOutOfRange, none)
  | some op =>
    match decode op with
    | .ok ins => .ok ins
    | .error (.illegalOpcode w) => .error (.illegalOpcode, some w)

/-- Why a step executes nothing, in R100's order: a fault is recorded, the core is paused, or it waits for a key. -/
def State.idle (s : State) : Option StepReport :=
  if s.fault.isSome then some .halted
  else if s.paused then some .paused
  else if s.wait.isSome then some .waiting
  else none

/-- The word of an instruction at the place the next fetch reads, on a core that will fetch: not faulted, not
paused, not waiting, pc at most 0xFFE (the entry point when it is above; notes/assumptions/9.md). -/
def State.placeWord (s : State) (op : Word) : State :=
  let pc : Word := if s.pc.toNat ≤ 0xFFE then s.pc else 0x200
  { s with
    pc := pc, wait := none, paused := false, fault := none,
    mem := (s.mem.write pc.toNat (firstByte op)).write (pc.toNat + 1) (secondByte op) }

end Sys2Proof.Machine
end

