-- ==== Sys2Proof/Machine/Flags.lean ====
section
/-! DEFINITION. The flags VF receives (10_state.md R22) and the order they are written in (41_alu.md R140). -/

namespace Sys2Proof.Machine

/-- A flag as the byte VF holds: 1 or 0. -/
def flagByte (f : Bool) : Byte := if f then 1 else 0

/-- 8xy4: carry, the mathematical sum exceeds 255 (41_alu.md R136). -/
def carry (a b : Byte) : Bool := decide (a.toNat + b.toNat > 255)

/-- 8xy5 and 8xy7: NOT-borrow, the minuend is not less than the subtrahend (R137, R138). -/
def notBorrow (minuend subtrahend : Byte) : Bool := decide (minuend.toNat ≥ subtrahend.toNat)

/-- 8xy6: the least significant bit of the pre-shift value (R142, R143). -/
def shiftedOutRight (a : Byte) : Bool := a.getLsbD 0

/-- 8xyE: the most significant bit of the pre-shift value (R145, R143). -/
def shiftedOutLeft (a : Byte) : Bool := a.getLsbD 7

/-- Write the result to V[x], THEN the flag to VF, so that the flag wins when x = F (R140). -/
def State.writeWithFlag (s : State) (x : Reg) (result : Byte) (flag : Bool) : State :=
  (s.writeV x result).writeV vF (flagByte flag)

end Sys2Proof.Machine
end

