-- ==== Sys2Proof/Machine/Alu.lean ====
section
/-! DEFINITION. Register loads and the 8-bit ALU (41_alu.md). Every meaning ends with the uniform pc increment and
none can fault. -/

namespace Sys2Proof.Machine

/-- An instruction whose one effect is `V[x] <- b`. -/
def State.loadV (s : State) (x : Reg) (b : Byte) : Result := .next (s.writeV x b).fallThrough

/-- An instruction that writes a result to V[x] and then a flag to VF (R140). -/
def State.loadVFlag (s : State) (x : Reg) (b : Byte) (flag : Bool) : Result :=
  .next (s.writeWithFlag x b flag).fallThrough

/-- LD Vx, kk (R130). -/
def execLdImm (x : Reg) (kk : Byte) (s : State) : Result := s.loadV x kk

/-- ADD Vx, kk (R131): mod 256, no flag. -/
def execAddImm (x : Reg) (kk : Byte) (s : State) : Result := s.loadV x (s.readV x + kk)

/-- LD Vx, Vy (R132). -/
def execLdReg (x y : Reg) (s : State) : Result := s.loadV x (s.readV y)

/-- OR Vx, Vy (R133): no flag. -/
def execOrReg (x y : Reg) (s : State) : Result := s.loadV x (s.readV x ||| s.readV y)

/-- AND Vx, Vy (R134): no flag. -/
def execAndReg (x y : Reg) (s : State) : Result := s.loadV x (s.readV x &&& s.readV y)

/-- XOR Vx, Vy (R135): no flag. -/
def execXorReg (x y : Reg) (s : State) : Result := s.loadV x (s.readV x ^^^ s.readV y)

/-- ADD Vx, Vy (R136): mod 256, VF = carry. -/
def execAddReg (x y : Reg) (s : State) : Result :=
  s.loadVFlag x (s.readV x + s.readV y) (carry (s.readV x) (s.readV y))

/-- SUB Vx, Vy (R137): Vx - Vy mod 256, VF = NOT-borrow. -/
def execSubReg (x y : Reg) (s : State) : Result :=
  s.loadVFlag x (s.readV x - s.readV y) (notBorrow (s.readV x) (s.readV y))

/-- SUBN Vx, Vy (R138): Vy - Vx mod 256, VF = NOT-borrow. -/
def execSubnReg (x y : Reg) (s : State) : Result :=
  s.loadVFlag x (s.readV y - s.readV x) (notBorrow (s.readV y) (s.readV x))

/-- SHR Vx (R142): V[x] by one place, V[y] not read (R144). -/
def execShr (x _y : Reg) (s : State) : Result :=
  s.loadVFlag x (s.readV x >>> 1) (shiftedOutRight (s.readV x))

/-- SHL Vx (R145): V[x] by one place, V[y] not read (R144). -/
def execShl (x _y : Reg) (s : State) : Result :=
  s.loadVFlag x (s.readV x <<< 1) (shiftedOutLeft (s.readV x))

/-- RND Vx, kk (R148): a fresh random byte AND kk. -/
def execRnd (x : Reg) (kk : Byte) (s : State) : Result := s.afterDraw.loadV x (s.nextDraw &&& kk)

end Sys2Proof.Machine
end

