-- ==== Sys2Proof/Machine/Operands.lean ====
section
/-! DEFINITION. The operand forms (30_encoding.md R73) and the addresses the memory instructions compute. -/

namespace Sys2Proof.Machine

/-- `zext_16(nnn)` (R73). -/
def zextAddr (nnn : Addr12) : Word := nnn.zeroExtend 16

/-- `zext_16` of a byte (R8). -/
def zextByte (b : Byte) : Word := b.zeroExtend 16

/-- The base of a memory access: I at full precision, so that sums do not wrap (20_memory.md R52). -/
def State.memBase (s : State) : Nat := s.i.toNat

/-- How many bytes Fx55 and Fx65 move: x is the inclusive upper bound of the block (R73). -/
def blockLength (x : Reg) : Nat := x.val + 1

/-- `V[0]` to `V[x]`, in order. -/
def State.readVs (s : State) (x : Reg) : List Byte :=
  (List.range (blockLength x)).map (fun k => s.readV (fin16 k))

/-- The key a register names: none when the value is above 0x0F (44_keyboard_timers.md R211). -/
def keyOfByte (b : Byte) : Option Key := if b.toNat ≤ 0x0F then some (fin16 b.toNat) else none

/-- `keys[k]`. -/
def State.keyDown? (s : State) (k : Key) : Bool := s.keys[k]

/-- The address of the font glyph of a digit: FONT_BASE = 0, 5 bytes a glyph, not masked (42_index_memory.md R162). -/
def glyphAddr (digit : Byte) : Word := zextByte digit * 5

/-- The three decimal digits of a byte, hundreds first (42_index_memory.md R163). -/
def bcdDigits (b : Byte) : List Byte :=
  [BitVec.ofNat 8 (b.toNat / 100), BitVec.ofNat 8 (b.toNat / 10 % 10), BitVec.ofNat 8 (b.toNat % 10)]

end Sys2Proof.Machine
end

