-- ==== Sys2Proof/Machine/Control.lean ====
section
/-! DEFINITION. Control transfer (40_control_flow.md). -/

namespace Sys2Proof.Machine

/-- SYS nnn (R103): a no-op. -/
def execSys (_nnn : Addr12) (s : State) : Result := .next s.fallThrough

/-- JP nnn (R104). -/
def execJp (nnn : Addr12) (s : State) : Result := .next (s.jumpTo (zextAddr nnn))

/-- CALL nnn (R105): the address of the next instruction is pushed. `sp` above 16 is never reached
(10_state.md R25; notes/assumptions/5.md). -/
def execCall (nnn : Addr12) (s : State) : Result :=
  if s.sp.toNat > stackDepth then .fault .stackPointerOutOfRange
  else if s.sp.toNat = stackDepth then s.raiseIn (.call nnn) .stackOverflow
  else .next ((s.push (s.pc + 2)).jumpTo (zextAddr nnn))

/-- RET (R106): the popped address is used as it is. `sp` above 16 is never reached
(10_state.md R25; notes/assumptions/5.md). -/
def execRet (s : State) : Result :=
  if s.sp.toNat > stackDepth then .fault .stackPointerOutOfRange
  else if s.sp.toNat = 0 then s.raiseIn .ret .stackUnderflow
  else .next (s.pop.jumpTo s.stackTop)

/-- JP V0, nnn (R107): 16-bit sum, no wrap to 12 bits. -/
def execJpV0 (nnn : Addr12) (s : State) : Result := .next (s.jumpTo (zextAddr nnn + zextByte (s.readV 0)))

/-- SE Vx, kk (R108). -/
def execSeImm (x : Reg) (kk : Byte) (s : State) : Result := .next (s.skipIf (s.readV x == kk))

/-- SNE Vx, kk (R109). -/
def execSneImm (x : Reg) (kk : Byte) (s : State) : Result := .next (s.skipIf (s.readV x != kk))

/-- SE Vx, Vy (R110). -/
def execSeReg (x y : Reg) (s : State) : Result := .next (s.skipIf (s.readV x == s.readV y))

/-- SNE Vx, Vy (R111). -/
def execSneReg (x y : Reg) (s : State) : Result := .next (s.skipIf (s.readV x != s.readV y))

end Sys2Proof.Machine
end

