-- ==== Sys2Proof/Machine/Draw.lean ====
section
/-! DEFINITION. The display and the sprite XOR-draw engine (43_display.md). -/

namespace Sys2Proof.Machine

/-- Is the cell in column `x`, row `y` lit (10_state.md R29)? -/
def Display.lit (d : Display) (x : Fin 64) (y : Fin 32) : Bool := d[y][x]

/-- `disp[x][y] <- b`. -/
def Display.put (d : Display) (x : Fin 64) (y : Fin 32) (b : Bool) : Display := d.set y (d[y].set x b)

/-- Every cell unlit. -/
def Display.clear : Display := Vector.replicate 32 (Vector.replicate 64 false)

/-- `cx mod 64`: columns wrap (R181). -/
def columnOf (cx : Nat) : Fin 64 := ⟨cx % 64, Nat.mod_lt cx (by decide)⟩

/-- `cy mod 32`: rows wrap (R181). -/
def rowOf (cy : Nat) : Fin 32 := ⟨cy % 32, Nat.mod_lt cy (by decide)⟩

/-- `toggle(cx, cy)` (R181): coordinates wrap mod 64 and mod 32; also whether the cell was lit before. -/
def Display.toggle (d : Display) (cx cy : Nat) : Display × Bool :=
  (d.put (columnOf cx) (rowOf cy) (!d.lit (columnOf cx) (rowOf cy)), d.lit (columnOf cx) (rowOf cy))

/-- One column of a sprite row: a 1 bit toggles its cell, and a lit cell under it is a collision; a 0 bit does
nothing. Column 0 is bit 7 (R182). The pair is the display and `collided`. -/
def drawColumn (ox cy : Nat) (b : Byte) (p : Display × Bool) (col : Nat) : Display × Bool :=
  if b.getLsbD (7 - col) then
    let q := p.1.toggle (ox + col) cy
    (q.1, p.2 || q.2)
  else p

/-- One sprite row, columns 0 to 7 (R182). -/
def drawRow (ox cy : Nat) (b : Byte) (p : Display × Bool) : Display × Bool :=
  (List.range 8).foldl (drawColumn ox cy b) p

/-- The rows of a sprite from row `oy` down (R182). -/
def drawRows (ox oy : Nat) (rows : List Byte) (p : Display × Bool) : Display × Bool :=
  match rows with
  | [] => p
  | b :: rest => drawRows ox (oy + 1) rest (drawRow ox oy b p)

/-- CLS (R180): no flag. -/
def execCls (s : State) : Result := .next { s with disp := Display.clear }.fallThrough

/-- DRW Vx, Vy, n (R182): coordinates and I are read before VF is written; with n = 0 there is no access and no
range check, and VF becomes 0 (R186). -/
def execDrw (x y : Reg) (n : Nibble) (s : State) : Result :=
  match s.loadBytes s.memBase n.toNat with
  | none => s.raiseIn (.drw x y n) .memoryOutOfRange
  | some rows =>
    let p := drawRows (s.readV x).toNat (s.readV y).toNat rows (s.disp, false)
    .next ({ s with disp := p.1 }.writeV vF (flagByte p.2)).fallThrough

end Sys2Proof.Machine
end

