-- ==== Sys2Proof/Machine/Index.lean ====
section
/-! DEFINITION. The address register and the memory instructions (42_index_memory.md). -/

namespace Sys2Proof.Machine

/-- LD I, nnn (R160). -/
def execLdI (nnn : Addr12) (s : State) : Result := .next (s.setI (zextAddr nnn)).fallThrough

/-- ADD I, Vx (R161): mod 2^16, no flag, no fault. -/
def execAddIVx (x : Reg) (s : State) : Result := .next (s.setI (s.i + zextByte (s.readV x))).fallThrough

/-- LD F, Vx (R162): not masked. -/
def execLdFVx (x : Reg) (s : State) : Result := .next (s.setI (glyphAddr (s.readV x))).fallThrough

/-- An instruction whose one effect is to store bytes at I, I + 1, …; nothing is written when any address is out
of range (20_memory.md R52). -/
def State.storeAtI (s : State) (ins : Instr) (bs : List Byte) : Result :=
  match s.storeBytes s.memBase bs with
  | none => s.raiseIn ins .memoryOutOfRange
  | some t => .next t.fallThrough

/-- LD B, Vx (R163): the decimal digits at I, I + 1, I + 2; I is left as it is. -/
def execLdBVx (x : Reg) (s : State) : Result := s.storeAtI (.ldBVx x) (bcdDigits (s.readV x))

/-- LD [I], Vx (R164): V0 to Vx at I, I + 1, …; I is left as it is. -/
def execLdMemVx (x : Reg) (s : State) : Result := s.storeAtI (.ldMemVx x) (s.readVs x)

/-- LD Vx, [I] (R165): V0 to Vx from I, I + 1, …; no register is written when any address is out of range; I is
left as it is. -/
def execLdVxMem (x : Reg) (s : State) : Result :=
  match s.loadBytes s.memBase (blockLength x) with
  | none => s.raiseIn (.ldVxMem x) .memoryOutOfRange
  | some bs => .next (s.writeVs 0 bs).fallThrough

end Sys2Proof.Machine
end

