-- ==== Sys2Proof/Machine/KeyTimer.lean ====
section
/-! DEFINITION. Key and timer instructions (44_keyboard_timers.md). -/

namespace Sys2Proof.Machine

/-- SKP Vx (R204): a key number above 0x0F is a fault (R211). -/
def execSkp (x : Reg) (s : State) : Result :=
  match keyOfByte (s.readV x) with
  | none => s.raiseIn (.skp x) .keyIndexOutOfRange
  | some k => .next (s.skipIf (s.keyDown? k))

/-- SKNP Vx (R205): a key number above 0x0F is a fault (R211). -/
def execSknp (x : Reg) (s : State) : Result :=
  match keyOfByte (s.readV x) with
  | none => s.raiseIn (.sknp x) .keyIndexOutOfRange
  | some k => .next (s.skipIf (!s.keyDown? k))

/-- LD Vx, K (R206): the core waits; the next pc is this instruction's own address. -/
def execLdVxK (x : Reg) (s : State) : Result := .next { s with wait := some x }

/-- LD Vx, DT (R208). -/
def execLdVxDt (x : Reg) (s : State) : Result := s.loadV x s.dt

/-- LD DT, Vx (R209). -/
def execLdDtVx (x : Reg) (s : State) : Result := .next { s with dt := s.readV x }.fallThrough

/-- LD ST, Vx (R210). -/
def execLdStVx (x : Reg) (s : State) : Result := .next { s with st := s.readV x }.fallThrough

end Sys2Proof.Machine
end

