-- ==== Sys2Proof/Machine/Step.lean ====
section
/-! DEFINITION. The step (40_control_flow.md R100), what it reports (00_scope.md R12), and where the host places an
instruction word. -/

namespace Sys2Proof.Machine

/-- `step()` (R100): nothing when halted, paused or waiting; else fetch, decode and execute. A fault of the fetch or
of the decoder is recorded (60_exceptions.md R232). -/
def step (s : State) : Host.Outcome State Fault Refusal :=
  match s.idle with
  | some _ => .next s
  | none =>
    match s.fetchDecode with
    | .error e => .next (s.raise e.1 e.2)
    | .ok ins => exec ins s

/-- What that step reports (R12); none when the model stops. -/
def stepReport (s : State) : Option StepReport :=
  match s.idle with
  | some r => some r
  | none =>
    match step s with
    | .next t => some (match t.fault with | none => .executed | some r => .fault r.kind)
    | .fault _ => none
    | .refused _ => none

/-- The state with that instruction word (numbered as spec/opcode_table.json numbers it) where `step` fetches its
next instruction, on a core that will fetch (notes/assumptions/9.md). -/
def State.withFetchWord (s : State) (nbits w : Nat) : State := s.placeWord (tableWord nbits w)

end Sys2Proof.Machine
end

