-- ==== Sys2Proof/Machine/Load.lean ====
section
/-! DEFINITION. `load`, the block's only reset (70_reset_and_hazards.md R270, 60_exceptions.md R253). -/

namespace Sys2Proof.Machine

/-- Memory after a load: zero, then FONT at 0x000, then the image at 0x200, verbatim (R270). An unlisted address
reads as the default FONT and zero, so the writes list what differs from that (notes/assumptions/8.md). -/
def loadedMemory (c : Config) (rom : List Byte) : Memory :=
  (Memory.writeBlock [] 0x000 c.font.toList).writeBlock programBase rom

/-- `load(rom)`: more than 3584 bytes are rejected with ProgramTooLarge (R253); otherwise every piece of state takes
its value of 10_state.md R35. The count of random draws is no state of the spec and goes on, so that later draws
stay fresh (notes/assumptions/1.md). -/
def State.load (c : Config) (rom : List Byte) (s : State) : Except FaultKind State :=
  if rom.length > maxRom then .error .programTooLarge
  else .ok
    { mem := loadedMemory c rom
      v := Vector.replicate 16 0x00
      i := 0x0000
      pc := 0x200
      sp := 0
      stack := Vector.replicate 16 0x0000
      dt := 0
      st := 0
      disp := Display.clear
      keys := Vector.replicate 16 false
      wait := none
      paused := false
      fault := none
      lag := 0
      rngDraws := s.rngDraws }

end Sys2Proof.Machine
end

