-- ==== Sys2Proof/Machine/Scheduler.lean ====
section
/-! DEFINITION. The timers and the frame scheduler (60_exceptions.md R240 to R250). -/

namespace Sys2Proof.Machine

/-- One tick of a countdown register: down by one, floored at zero (R240). -/
def countDown (b : Byte) : Byte := if b = 0 then 0 else b - 1

/-- `tick_timers()` (R240). -/
def State.tickTimers (s : State) : State := { s with dt := countDown s.dt, st := countDown s.st }

/-- R245: the frame stops its budget when a wait has started or a fault is recorded. -/
def State.budgetOver (s : State) : Bool := s.wait.isSome || s.fault.isSome

/-- The loop of R245: at most `k` steps. -/
def runBudget (k : Nat) (s : State) : Result :=
  match k with
  | 0 => .next s
  | n + 1 => if s.budgetOver then .next s else Result.andThen (step s) (runBudget n)

/-- How many steps that loop makes (R246). -/
def budgetUsed (k : Nat) (s : State) : Nat :=
  match k with
  | 0 => 0
  | n + 1 =>
    if s.budgetOver then 0
    else
      match step s with
      | .next t => budgetUsed n t + 1
      | .fault _ => 1
      | .refused _ => 1

/-- The tick a frame makes: while the core waits in Fx0A only if TIMERS_RUN_WHILE_AWAITING (R241, R245). -/
def State.frameTick (c : Config) (s : State) : State :=
  if s.wait.isNone || c.timersRunWhileAwaiting then s.tickTimers else s

/-- `frame()` (R245): nothing while faulted or paused (R233, R242); else the tick, then the budget. -/
def frame (c : Config) (s : State) : Result :=
  if s.fault.isSome || s.paused then .next s else runBudget c.ipt (s.frameTick c)

/-- `k` turns of the loop of R247: a period off the lag, then a frame. -/
def runFrames (c : Config) (k : Nat) (s : State) : Result :=
  match k with
  | 0 => .next s
  | n + 1 => Result.andThen (frame c { s with lag := s.lag - c.tickPeriod }) (runFrames c n)

/-- How many full periods the accumulator holds (R247, R248). -/
def framesDue (c : Config) (lag : Nat) : Nat := lag / c.tickPeriod

/-- `advance(elapsed)` (R247): the elapsed time goes to the lag, then one frame a full period. -/
def advance (c : Config) (elapsed : Nat) (s : State) : Result :=
  runFrames c (framesDue c (s.lag + elapsed)) { s with lag := s.lag + elapsed }

/-- `pause_toggle()` (R250). -/
def State.pauseToggle (s : State) : State := { s with paused := !s.paused }

end Sys2Proof.Machine
end

