-- ==== Sys2Proof/Machine/Events.lean ====
section
/-! DEFINITION. The host's side: key events (44_keyboard_timers.md R200 to R203), the events of 00_scope.md R10 as one
type, and the outputs. -/

namespace Sys2Proof.Machine

/-! ### Key events -/

/-- `keys[k] <- b`. -/
def State.setKey (s : State) (k : Key) (b : Bool) : State := { s with keys := s.keys.set k b }

/-- A key's number as a byte (R202). -/
def keyByte (k : Key) : Byte := BitVec.ofNat 8 k.val

/-- `on_key_transition(k)` (R202): completes a pending capture on a core that is not paused and not faulted. -/
def State.onKeyTransition (s : State) (k : Key) : State :=
  match s.wait with
  | none => s
  | some x =>
    if s.paused || s.fault.isSome then s
    else { (s.writeV x (keyByte k)).fallThrough with wait := none }

/-- `key_down(k)` (R200, R201): only an up-to-down change is a transition. -/
def State.keyDown (s : State) (k : Key) : State :=
  if s.keyDown? k then s.setKey k true else (s.setKey k true).onKeyTransition k

/-- `key_up(k)` (R203). -/
def State.keyUp (s : State) (k : Key) : State := s.setKey k false

/-! ### The events of R10 -/

/-- A host event. Key numbers are natural numbers here, since R257 speaks of numbers above 15. -/
inductive Event where
  | load (rom : List Byte)
  | frame
  | advance (elapsed : Nat)
  | keyDown (k : Nat)
  | keyUp (k : Nat)
  | pauseToggle
  deriving DecidableEq, Repr

/-- What an event gives back beside the state (60_exceptions.md R259). -/
inductive Reply where
  | done
  /-- The program image was rejected and nothing changed (R253). -/
  | rejected (kind : FaultKind)
  deriving DecidableEq, Repr

/-- What an event answers. -/
abbrev EventResult := Host.Outcome (State × Reply) Fault Refusal

/-- A result that needs no more than `done` as its reply. -/
def Result.reply (r : Result) : EventResult :=
  match r with
  | .next s => .next (s, .done)
  | .fault e => .fault e
  | .refused e => .refused e

/-- A key event with its number checked: above 15 it is no event of the block and is refused (R257). -/
def withKey (k : Nat) (f : Key → State) : EventResult :=
  if k ≤ 15 then .next (f (fin16 k), .done) else .refused (.notAnEvent k)

/-- One host event, applied to the whole state (R10). -/
def applyEvent (c : Config) (e : Event) (s : State) : EventResult :=
  match e with
  | .load rom =>
    match s.load c rom with
    | .ok t => .next (t, .done)
    | .error kind => .next (s, .rejected kind)
  | .frame => (frame c s).reply
  | .advance elapsed => (advance c elapsed s).reply
  | .keyDown k => withKey k s.keyDown
  | .keyUp k => withKey k s.keyUp
  | .pauseToggle => .next (s.pauseToggle, .done)

/-- Events one after another, each between frames (R212); the replies in order. -/
def applyEvents (c : Config) (es : List Event) (s : State) : Host.Outcome (State × List Reply) Fault Refusal :=
  match es with
  | [] => .next (s, [])
  | e :: rest =>
    match applyEvent c e s with
    | .next (t, r) =>
      match applyEvents c rest t with
      | .next (u, rs) => .next (u, r :: rs)
      | .fault f => .fault f
      | .refused f => .refused f
    | .fault f => .fault f
    | .refused f => .refused f

/-! ### Outputs (R10) -/

/-- The sound output, ST ≠ 0 (60_exceptions.md R258). -/
def State.soundOn (s : State) : Bool := s.st != 0

/-- The display output: is the cell in column x, row y lit (43_display.md R187, 60_exceptions.md R256)? -/
def State.pixel (s : State) (x : Fin 64) (y : Fin 32) : Bool := s.disp.lit x y

/-- The status output: a recorded fault first, then a pause, then a wait (10_state.md R27;
notes/assumptions/12.md). -/
def State.status (s : State) : Status :=
  match s.fault with
  | some r => .faulted r
  | none =>
    if s.paused then .paused
    else
      match s.wait with
      | some x => .awaitingKey x
      | none => .running

end Sys2Proof.Machine
end

