-- ==== Sys2Proof/Safety.lean ====
section
/-! DEFINITION. The terms claims are stated in: the parts of the state and what a change leaves alone, the
registers and bytes an instruction may write, the invariant of the machine, the states it can reach. -/

namespace Sys2Proof.Machine

/-! ### Frames -/

/-- The parts of the state (10_state.md R20), memory byte by byte, registers, stack entries, cells and keys one by
one, and the model's count of random draws. -/
inductive Part where
  | mem (a : Nat)
  | v (x : Reg)
  | i
  | pc
  | sp
  | stack (j : Fin 16)
  | dt
  | st
  | pixel (x : Fin 64) (y : Fin 32)
  | key (k : Key)
  | wait
  | paused
  | fault
  | lag
  | rngDraws
  deriving DecidableEq, Repr

/-- The part reads the same in both states. -/
def Part.same (p : Part) (s t : State) : Prop :=
  match p with
  | .mem a => t.mem.read a = s.mem.read a
  | .v x => t.readV x = s.readV x
  | .i => t.i = s.i
  | .pc => t.pc = s.pc
  | .sp => t.sp = s.sp
  | .stack j => t.stackEntry j = s.stackEntry j
  | .dt => t.dt = s.dt
  | .st => t.st = s.st
  | .pixel x y => t.disp.lit x y = s.disp.lit x y
  | .key k => t.keyDown? k = s.keyDown? k
  | .wait => t.wait = s.wait
  | .paused => t.paused = s.paused
  | .fault => t.fault = s.fault
  | .lag => t.lag = s.lag
  | .rngDraws => t.rngDraws = s.rngDraws

/-- From `s` to `t` every part outside the list is unchanged. -/
def OnlyChanges (ps : List Part) (s t : State) : Prop := ∀ p, p ∉ ps → p.same s t

/-- The memory parts `base`, `base + 1`, …, `n` of them. -/
def memParts (base n : Nat) : List Part := (List.range n).map (fun k => .mem (base + k))

/-- The registers V0 to Vx. -/
def regParts (x : Reg) : List Part := (List.range (x.val + 1)).map (fun k => .v (fin16 k))

/-- The fault record of an instruction at this state's pc (60_exceptions.md R232). -/
def faultRecordAt (s : State) (kind : FaultKind) (ins : Instr) : FaultRecord := ⟨kind, s.pc, some (encode ins)⟩

/-- The registers an instruction may write, the flag in VF included (10_state.md R22, R37). -/
def destinations (i : Instr) : List Reg :=
  match i with
  | .ldImm x _ | .addImm x _ | .ldReg x _ | .orReg x _ | .andReg x _ | .xorReg x _ | .rnd x _ | .ldVxDt x => [x]
  | .addReg x _ | .subReg x _ | .subnReg x _ | .shr x _ | .shl x _ => [x, vF]
  | .drw _ _ _ => [vF]
  | .ldVxMem x => (List.range (x.val + 1)).map fin16
  | .cls | .ret | .sys _ | .jp _ | .call _ | .seImm _ _ | .sneImm _ _ | .seReg _ _ | .sneReg _ _ | .ldI _
  | .jpV0 _ | .skp _ | .sknp _ | .ldVxK _ | .ldDtVx _ | .ldStVx _ | .addIVx _ | .ldFVx _ | .ldBVx _
  | .ldMemVx _ => []

/-- The cell (cx, cy) lies under a 1 bit of the sprite Dxyn draws (43_display.md R182): in row r, column c, bit
7 - c, at the coordinates mod 64 and mod 32. -/
def State.UnderSprite (s : State) (x y : Reg) (n : Nibble) (cx : Fin 64) (cy : Fin 32) : Prop :=
  ∃ r c, r < n.toNat ∧ c < 8 ∧ (s.mem.read (s.i.toNat + r)).getLsbD (7 - c) = true ∧
    cx.val = ((s.readV x).toNat + c) % 64 ∧ cy.val = ((s.readV y).toNat + r) % 32

/-! ### Illegal words (30_encoding.md R77) -/

/-- The rows of R77's table: the class `c` and the condition on the fields n and kk that make a word illegal. -/
def IllegalFields (c n kk : Nat) : Prop :=
  ((c = 5 ∨ c = 9) ∧ n ≠ 0) ∨
  (c = 8 ∧ n ∈ [8, 9, 0xA, 0xB, 0xC, 0xD, 0xF]) ∨
  (c = 0xE ∧ kk ∉ [0x9E, 0xA1]) ∨
  (c = 0xF ∧ kk ∉ [0x07, 0x0A, 0x15, 0x18, 0x1E, 0x29, 0x33, 0x55, 0x65])

/-- R77's illegal words: the class is `op[15:12]`, n is `op[3:0]`, kk is `op[7:0]`. -/
def IllegalWord (op : Word) : Prop := IllegalFields (op.toNat / 4096) (op.toNat % 16) (op.toNat % 256)

/-! ### The core runs -/

/-- The core executes: no fault is recorded, it is not paused and it does not wait (10_state.md R27, R32). -/
def State.Runs (s : State) : Prop := s.fault = none ∧ s.paused = false ∧ s.wait = none

/-! ### The invariant -/

/-- What holds of every state the machine reaches. -/
structure State.Inv (s : State) : Prop where
  /-- Memory is in its canonical form. -/
  mem_wf : s.mem.wf
  /-- The stack pointer is 0 to 16 (10_state.md R25). -/
  sp_le : s.sp.toNat ≤ 16
  /-- While the core waits, pc is at the Fx0A that started the wait, and x is its register (44_keyboard_timers.md
  R206; 10_state.md R27). -/
  wait_at : ∀ x, s.wait = some x → s.fetch = some (encode (.ldVxK x))
  /-- A faulted core does not wait: a waiting core executes nothing that could fault (R207). -/
  fault_not_waiting : s.fault ≠ none → s.wait = none
  /-- The record names the instruction pc is still at, and its word, or none when it cannot be fetched
  (60_exceptions.md R232). -/
  fault_precise : ∀ r, s.fault = some r → r.pc = s.pc ∧ r.opcode = s.fetch
  /-- ProgramTooLarge is never recorded (R230). -/
  fault_kind : ∀ r, s.fault = some r → r.kind ≠ .programTooLarge

/-! ### Reachable states -/

/-- The states the host can bring the machine to from the reset state: by events, and by single steps. -/
inductive Reachable (c : Config) : State → Prop where
  | reset : Reachable c State.reset
  | step {s t : State} : Reachable c s → step s = .next t → Reachable c t
  | event {s t : State} {e : Event} {r : Reply} : Reachable c s → applyEvent c e s = .next (t, r) → Reachable c t

end Sys2Proof.Machine
end

