-- ==== Sys2Proof/Certificates/Slice0/Obligations.lean ====
section
/-! DEFINITION. The statements for the provers. Each docstring names the rule of spec/ it formalises. Rules marked in
the spec as its own decision (D<n>) or as general knowledge are still its numbered rules; notes/assumptions/10.md and
11.md list them. -/

open Sys2Proof Sys2Proof.Machine

/-! ### Encoding (30_encoding.md) -/

/-- Decode and encode agree, for every well-formed instruction and every value of every operand. -/
def Obligations.DecodeOfEncodeIsTheInstruction : Prop :=
  ∀ i : Instr, i.wellFormed = true → decode (encode i) = .ok i

/-- R79: every word decodes to one well-formed instruction, whose word it is (so no bit is dropped), or is illegal
under its own name. -/
def Obligations.EveryWordIsOneInstructionOrIllegal : Prop :=
  ∀ op : Word, (∃ i, decode op = .ok i ∧ i.wellFormed = true ∧ encode i = op) ∨
    decode op = .error (.illegalOpcode op)

/-- R76: 35 rows; a word that decodes fits its instruction's row; a word that fits a row decodes to an instruction of
that row, but for the words of rows 1 and 2, which row 3 leaves to them; no other two rows overlap. -/
def Obligations.DecodingFollowsTheOpcodeTable : Prop :=
  opcodeTable.length = 35 ∧
  (∀ op i, decode op = .ok i → i.row ∈ opcodeTable ∧ i.row.fits op = true) ∧
  (∀ op r, r ∈ opcodeTable → r.fits op = true →
    ∃ i, decode op = .ok i ∧ (i.row = r ∨ (r = ⟨0x0000, 0xF000⟩ ∧ (op = 0x00E0 ∨ op = 0x00EE)))) ∧
  (∀ op r q, r ∈ opcodeTable → q ∈ opcodeTable → r.fits op = true → q.fits op = true →
    r = q ∨ op = 0x00E0 ∨ op = 0x00EE)

/-- R75: class 0 decodes in the order CLS, RET, SYS, and SYS is a no-op: only pc changes. -/
def Obligations.ClassZeroIsClsRetOrANoOp : Prop :=
  decode 0x00E0 = .ok .cls ∧ decode 0x00EE = .ok .ret ∧
  (∀ op : Word, op.toNat ≤ 0x0FFF → op ≠ 0x00E0 → op ≠ 0x00EE → decode op = .ok (.sys (op.setWidth 12))) ∧
  (∀ nnn s, ∃ t, exec (.sys nnn) s = .next t ∧ t.pc = s.pc + 2 ∧ OnlyChanges [.pc] s t)

/-- R77: the words that are illegal, and what executing one does: IllegalOpcode with pc and word, nothing else. -/
def Obligations.IllegalWordsAreExactlyTheListedOnes : Prop :=
  (∀ op : Word, decode op = .error (.illegalOpcode op) ↔ IllegalWord op) ∧
  (∀ (s : State) (op : Word), s.Runs → s.fetch = some op → IllegalWord op →
    ∃ t, step s = .next t ∧ t.fault = some ⟨.illegalOpcode, s.pc, some op⟩ ∧ OnlyChanges [.fault] s t)

/-- Words written out bit by bit from R72 and R76, one or more a family. -/
def Obligations.SampleWordsDecode : Prop :=
  decode 0b0000000011100000#16 = .ok .cls ∧
  decode 0b0010001101000101#16 = .ok (.call 0x345) ∧
  decode 0b0011001101000010#16 = .ok (.seImm 3 0x42) ∧
  decode 0b1000000100100101#16 = .ok (.subReg 1 2) ∧
  decode 0b1010000100100011#16 = .ok (.ldI 0x123) ∧
  decode 0b1101000100100101#16 = .ok (.drw 1 2 5) ∧
  decode 0b1110001110011110#16 = .ok (.skp 3) ∧
  decode 0b1111001001100101#16 = .ok (.ldVxMem 2)

/-! ### The step (40_control_flow.md, 60_exceptions.md) -/

/-- A step runs the decoded instruction: on a core that executes, when the two bytes at pc (big-endian, R50) decode to
`i`, the step is `exec i`; exec itself moves pc past the word. -/
def Obligations.StepRunsTheDecodedInstruction : Prop :=
  ∀ (s : State) (i : Instr), s.Runs → s.pc.toNat ≤ 0xFFE →
    decode (s.mem.read s.pc.toNat ++ s.mem.read (s.pc.toNat + 1)) = .ok i → step s = exec i s

/-- R101: above 0xFFE the fetch faults with no opcode and nothing else changes; at 0x000 to 0xFFE, odd or even, it
is the big-endian word at pc. -/
def Obligations.FetchFaultsAboveTheLastWord : Prop :=
  (∀ s : State, s.Runs → s.pc.toNat > 0xFFE →
    ∃ t, step s = .next t ∧ t.fault = some ⟨.memoryOutOfRange, s.pc, none⟩ ∧ OnlyChanges [.fault] s t) ∧
  (∀ s : State, s.pc.toNat ≤ 0xFFE →
    s.fetch = some (s.mem.read s.pc.toNat ++ s.mem.read (s.pc.toNat + 1)))

/-- R100, R207, R233: a halted, paused or waiting core's step changes nothing, and reports which, in R100's order. -/
def Obligations.HaltedPausedAndWaitingStepsChangeNothing : Prop :=
  ∀ s : State,
    (s.fault ≠ none → step s = .next s ∧ stepReport s = some .halted) ∧
    (s.fault = none → s.paused = true → step s = .next s ∧ stepReport s = some .paused) ∧
    (s.fault = none → s.paused = false → s.wait ≠ none → step s = .next s ∧ stepReport s = some .waiting)

/-- R232: a step that records a fault changes nothing else, and the record has the pc and the word (none for a fetch
fault) of the faulting instruction. -/
def Obligations.FaultsArePrecise : Prop :=
  ∀ (s t : State) (r : FaultRecord), step s = .next t → s.fault = none → t.fault = some r →
    OnlyChanges [.fault] s t ∧ r.pc = s.pc ∧ r.opcode = s.fetch ∧ stepReport s = some (.fault r.kind)

/-- R233: once a fault is recorded every step is halted and changes nothing, a frame changes nothing, key events only
update their key, no event but a `load` clears the record, and a `load` that is not rejected does. -/
def Obligations.OnlyLoadClearsAFault : Prop :=
  ∀ (c : Config) (s : State) (r : FaultRecord), s.fault = some r →
    step s = .next s ∧ stepReport s = some .halted ∧ frame c s = .next s ∧
    (∀ k, (s.keyDown k).keyDown? k = true ∧ OnlyChanges [.key k] s (s.keyDown k) ∧
      (s.keyUp k).keyDown? k = false ∧ OnlyChanges [.key k] s (s.keyUp k)) ∧
    (∀ e t q, (∀ rom, e ≠ .load rom) → applyEvent c e s = .next (t, q) → t.fault = some r) ∧
    (∀ rom t, applyEvent c (.load rom) s = .next (t, .done) → t.fault = none)

/-- R231, R230: the instructions that are not in R230's table record no fault, from any state. -/
def Obligations.OtherInstructionsNeverFault : Prop :=
  ∀ (i : Instr) (s : State), (∀ a, i ≠ .call a) → i ≠ .ret → (∀ x y n, i ≠ .drw x y n) → (∀ x, i ≠ .skp x) →
    (∀ x, i ≠ .sknp x) → (∀ x, i ≠ .ldBVx x) → (∀ x, i ≠ .ldMemVx x) → (∀ x, i ≠ .ldVxMem x) →
    ∃ t, exec i s = .next t ∧ t.fault = s.fault

/-- Every step goes on, when the stack pointer is 0 to 16 as R25 says it always is. The stop above 16 is the model's
choice (notes/assumptions/5.md). -/
def Obligations.StepAlwaysGoesOn : Prop := ∀ s : State, s.sp.toNat ≤ 16 → ∃ t, step s = .next t

/-! ### Invariants -/

/-- The invariant holds at reset (R35; the memory form is the model's choice, notes/assumptions/8.md). -/
def Obligations.ResetSatisfiesTheInvariant : Prop := State.reset.Inv

/-- Every step keeps the invariant: canonical memory, sp at most 16 (R25), a waiting core at its Fx0A (R206), a fault
record that names the instruction pc is at (R232). The memory form is the model's choice (notes/assumptions/8.md). -/
def Obligations.StepKeepsTheInvariant : Prop := ∀ s t : State, s.Inv → step s = .next t → t.Inv

/-- Every host event keeps the invariant, and none of them makes the model stop but a key number above 15 (R257). The
invariant's memory form (notes/assumptions/8.md) and the form of that refusal (notes/assumptions/13.md) are the model's
choice. -/
def Obligations.EventsKeepTheInvariant : Prop :=
  ∀ (c : Config) (e : Event) (s : State), s.Inv →
    (∃ t r, applyEvent c e s = .next (t, r) ∧ t.Inv) ∨
    ∃ k, 15 < k ∧ (e = .keyDown k ∨ e = .keyUp k) ∧ applyEvent c e s = .refused (.notAnEvent k)

/-- Every reachable state satisfies the invariant and has a next state. The invariant's memory form
(notes/assumptions/8.md), the stop above sp 16 (5.md) and events between single steps (14.md) are the model's choice. -/
def Obligations.ReachableStatesGoOn : Prop :=
  ∀ (c : Config) (s : State), Reachable c s → s.Inv ∧ ∃ t, step s = .next t

/-! ### What instructions write: whole-machine rules -/

/-- R25, R37: no instruction but CALL and RET writes or reads `sp` or the stack entries: with another `sp`, or with other
entries, it does the same and leaves those. -/
def Obligations.OnlyCallAndRetUseTheStackPointer : Prop :=
  ∀ (i : Instr) (s t : State), (∀ a, i ≠ .call a) → i ≠ .ret → exec i s = .next t →
    t.sp = s.sp ∧ t.stack = s.stack ∧
    (∀ p : Byte, exec i { s with sp := p } = .next { t with sp := p }) ∧
    (∀ q : Vector Word 16, exec i { s with stack := q } = .next { t with stack := q })

/-- R37, R21, R22, R23, R25, R26, R29, R100, R230: which instructions may change which state; every instruction may write
pc. The draw count and its clause are the model's choice (notes/assumptions/1.md). -/
def Obligations.StateIsWrittenOnlyByItsWriters : Prop :=
  ∀ (i : Instr) (s t : State), exec i s = .next t →
    (∀ r, r ∉ destinations i → t.readV r = s.readV r) ∧
    ((∀ a, i ≠ .ldI a) → (∀ x, i ≠ .addIVx x) → (∀ x, i ≠ .ldFVx x) → t.i = s.i) ∧
    ((∀ a, i ≠ .call a) → i ≠ .ret → t.sp = s.sp) ∧
    ((∀ a, i ≠ .call a) → t.stack = s.stack) ∧
    ((∀ x, i ≠ .ldBVx x) → (∀ x, i ≠ .ldMemVx x) → t.mem = s.mem) ∧
    (i ≠ .cls → (∀ x y n, i ≠ .drw x y n) → t.disp = s.disp) ∧
    ((∀ x, i ≠ .ldDtVx x) → t.dt = s.dt) ∧
    ((∀ x, i ≠ .ldStVx x) → t.st = s.st) ∧
    ((∀ x, i ≠ .ldVxK x) → t.wait = s.wait) ∧
    ((∀ a, i ≠ .call a) → i ≠ .ret → (∀ x y n, i ≠ .drw x y n) → (∀ x, i ≠ .skp x) → (∀ x, i ≠ .sknp x) →
      (∀ x, i ≠ .ldBVx x) → (∀ x, i ≠ .ldMemVx x) → (∀ x, i ≠ .ldVxMem x) → t.fault = s.fault) ∧
    ((∀ x kk, i ≠ .rnd x kk) → t.rngDraws = s.rngDraws) ∧
    t.keys = s.keys ∧ t.paused = s.paused ∧ t.lag = s.lag

/-- R21, R22, R37: an instruction changes no register but its destinations, VF among them only when it writes a flag
or names VF. -/
def Obligations.RegistersChangeOnlyAsDestinations : Prop :=
  ∀ (i : Instr) (s t : State) (r : Reg), exec i s = .next t → r ∉ destinations i → t.readV r = s.readV r

/-- R54: an instruction other than Dxyn, Fx33, Fx55 and Fx65 neither reads nor writes memory: with another memory it
does the same. -/
def Obligations.OtherInstructionsIgnoreMemory : Prop :=
  ∀ (i : Instr) (s t : State) (m : Memory), (∀ x y n, i ≠ .drw x y n) → (∀ x, i ≠ .ldBVx x) →
    (∀ x, i ≠ .ldMemVx x) → (∀ x, i ≠ .ldVxMem x) → exec i s = .next t →
    exec i { s with mem := m } = .next { t with mem := m }

/-- R102: where pc goes: a target for the jumps, pc + 2 or pc + 4 for the skips, pc for Fx0A, else pc + 2, all mod
2^16; unless the instruction faults. -/
def Obligations.NextPcIsTargetSkipOrIncrement : Prop :=
  ∀ (i : Instr) (s t : State), exec i s = .next t → s.fault = none → t.fault = none →
    match i with
    | .jp a | .call a => t.pc = a.setWidth 16
    | .jpV0 a => t.pc.toNat = a.toNat + (s.readV 0).toNat
    | .ret => t.pc = s.stackTop
    | .seImm _ _ | .sneImm _ _ | .seReg _ _ | .sneReg _ _ | .skp _ | .sknp _ =>
      t.pc.toNat = (s.pc.toNat + 4) % 65536 ∨ t.pc.toNat = (s.pc.toNat + 2) % 65536
    | .ldVxK _ => t.pc = s.pc
    | _ => t.pc.toNat = (s.pc.toNat + 2) % 65536

/-! ### Control transfer (40_control_flow.md) -/

/-- R104: JP goes to nnn, zero-extended; nothing else changes. -/
def Obligations.JpGoesToItsTarget : Prop :=
  ∀ (nnn : Addr12) (s : State), ∃ t, exec (.jp nnn) s = .next t ∧ t.pc.toNat = nnn.toNat ∧ OnlyChanges [.pc] s t

/-- R107: JP V0 goes to nnn + V0, always V0, with no wrap to 12 bits; nothing else changes. -/
def Obligations.JpV0AddsV0 : Prop :=
  ∀ (nnn : Addr12) (s : State), ∃ t, exec (.jpV0 nnn) s = .next t ∧
    t.pc.toNat = nnn.toNat + (s.readV 0).toNat ∧ OnlyChanges [.pc] s t

/-- R105: CALL pushes the address of the next instruction and jumps; with 16 return addresses on the stack it faults
and nothing else changes. -/
def Obligations.CallPushesTheNextAddress : Prop :=
  ∀ (nnn : Addr12) (s : State),
    (s.sp.toNat < 16 → ∃ t, exec (.call nnn) s = .next t ∧ t.pc.toNat = nnn.toNat ∧
      t.sp.toNat = s.sp.toNat + 1 ∧ t.stackEntry (fin16 s.sp.toNat) = s.pc + 2 ∧
      OnlyChanges [.pc, .sp, .stack (fin16 s.sp.toNat)] s t) ∧
    (s.sp.toNat = 16 → ∃ t, exec (.call nnn) s = .next t ∧
      t.fault = some (faultRecordAt s .stackOverflow (.call nnn)) ∧ OnlyChanges [.fault] s t)

/-- R106: RET goes to the address on top of the stack, as it is, and takes it off; the entry keeps its value; with an
empty stack it faults and nothing else changes. -/
def Obligations.RetPopsTheReturnAddress : Prop :=
  ∀ s : State,
    (0 < s.sp.toNat → s.sp.toNat ≤ 16 → ∃ t, exec .ret s = .next t ∧ t.sp.toNat = s.sp.toNat - 1 ∧
      t.pc = s.stackEntry (fin16 (s.sp.toNat - 1)) ∧ OnlyChanges [.pc, .sp] s t) ∧
    (s.sp.toNat = 0 → ∃ t, exec .ret s = .next t ∧
      t.fault = some (faultRecordAt s .stackUnderflow .ret) ∧ OnlyChanges [.fault] s t)

/-- A RET right after a CALL comes back to the instruction after the CALL, with the stack pointer as it was. -/
def Obligations.RetComesBackFromCall : Prop :=
  ∀ (nnn : Addr12) (s : State), s.sp.toNat < 16 →
    ∃ t u, exec (.call nnn) s = .next t ∧ exec .ret t = .next u ∧ u.pc = s.pc + 2 ∧
      OnlyChanges [.pc, .stack (fin16 s.sp.toNat)] s u

/-- R108 to R111: the four skips: pc + 4 when the condition holds, else pc + 2; nothing else changes. -/
def Obligations.SkipsCompare : Prop :=
  ∀ (x y : Reg) (kk : Byte) (s : State),
    (∃ t, exec (.seImm x kk) s = .next t ∧ OnlyChanges [.pc] s t ∧
      t.pc = s.pc + (if (s.readV x).toNat = kk.toNat then 4 else 2)) ∧
    (∃ t, exec (.sneImm x kk) s = .next t ∧ OnlyChanges [.pc] s t ∧
      t.pc = s.pc + (if (s.readV x).toNat = kk.toNat then 2 else 4)) ∧
    (∃ t, exec (.seReg x y) s = .next t ∧ OnlyChanges [.pc] s t ∧
      t.pc = s.pc + (if (s.readV x).toNat = (s.readV y).toNat then 4 else 2)) ∧
    (∃ t, exec (.sneReg x y) s = .next t ∧ OnlyChanges [.pc] s t ∧
      t.pc = s.pc + (if (s.readV x).toNat = (s.readV y).toNat then 2 else 4))

/-! ### Register loads and the ALU (41_alu.md) -/

/-- R130, R132: the loads; R131: add immediate, mod 256, no flag. -/
def Obligations.LoadsAndAddImmediate : Prop :=
  ∀ (x y : Reg) (kk : Byte) (s : State),
    (∃ t, exec (.ldImm x kk) s = .next t ∧ t.readV x = kk ∧ t.pc = s.pc + 2 ∧ OnlyChanges [.v x, .pc] s t) ∧
    (∃ t, exec (.ldReg x y) s = .next t ∧ t.readV x = s.readV y ∧ t.pc = s.pc + 2 ∧
      OnlyChanges [.v x, .pc] s t) ∧
    (∃ t, exec (.addImm x kk) s = .next t ∧ (t.readV x).toNat = ((s.readV x).toNat + kk.toNat) % 256 ∧
      t.pc = s.pc + 2 ∧ OnlyChanges [.v x, .pc] s t)

/-- R133 to R135: OR, AND and XOR, bit by bit, with no flag. -/
def Obligations.LogicIsBitwise : Prop :=
  ∀ (x y : Reg) (s : State),
    (∃ t, exec (.orReg x y) s = .next t ∧ t.pc = s.pc + 2 ∧ OnlyChanges [.v x, .pc] s t ∧
      ∀ k, (t.readV x).getLsbD k = ((s.readV x).getLsbD k || (s.readV y).getLsbD k)) ∧
    (∃ t, exec (.andReg x y) s = .next t ∧ t.pc = s.pc + 2 ∧ OnlyChanges [.v x, .pc] s t ∧
      ∀ k, (t.readV x).getLsbD k = ((s.readV x).getLsbD k && (s.readV y).getLsbD k)) ∧
    (∃ t, exec (.xorReg x y) s = .next t ∧ t.pc = s.pc + 2 ∧ OnlyChanges [.v x, .pc] s t ∧
      ∀ k, (t.readV x).getLsbD k = ((s.readV x).getLsbD k ^^ (s.readV y).getLsbD k))

/-- R136, R140: the sum mod 256 in Vx unless x = F, and VF = carry, written last. -/
def Obligations.AddGivesSumAndCarry : Prop :=
  ∀ (x y : Reg) (s : State), ∃ t, exec (.addReg x y) s = .next t ∧
    (x ≠ vF → (t.readV x).toNat = ((s.readV x).toNat + (s.readV y).toNat) % 256) ∧
    (t.readV vF).toNat = (if (s.readV x).toNat + (s.readV y).toNat > 255 then 1 else 0) ∧
    t.pc = s.pc + 2 ∧ OnlyChanges [.v x, .v vF, .pc] s t

/-- R137, R138, R140: the two differences mod 256 and NOT-borrow, written last. -/
def Obligations.SubtractionsGiveDifferenceAndNotBorrow : Prop :=
  ∀ (x y : Reg) (s : State),
    (∃ t, exec (.subReg x y) s = .next t ∧
      (x ≠ vF → ((t.readV x).toNat : Int) = ((s.readV x).toNat - (s.readV y).toNat : Int) % 256) ∧
      (t.readV vF).toNat = (if (s.readV x).toNat ≥ (s.readV y).toNat then 1 else 0) ∧
      t.pc = s.pc + 2 ∧ OnlyChanges [.v x, .v vF, .pc] s t) ∧
    (∃ t, exec (.subnReg x y) s = .next t ∧
      (x ≠ vF → ((t.readV x).toNat : Int) = ((s.readV y).toNat - (s.readV x).toNat : Int) % 256) ∧
      (t.readV vF).toNat = (if (s.readV y).toNat ≥ (s.readV x).toNat then 1 else 0) ∧
      t.pc = s.pc + 2 ∧ OnlyChanges [.v x, .v vF, .pc] s t)

/-- R142 to R145, R140: the shifts of V[x] by one place, V[y] not read, and the bit shifted out, written last. -/
def Obligations.ShiftsGiveTheBitShiftedOut : Prop :=
  ∀ (x y : Reg) (s : State),
    (∃ t, exec (.shr x y) s = .next t ∧ (x ≠ vF → (t.readV x).toNat = (s.readV x).toNat / 2) ∧
      (t.readV vF).toNat = (s.readV x).toNat % 2 ∧ t.pc = s.pc + 2 ∧
      OnlyChanges [.v x, .v vF, .pc] s t ∧ ∀ z, exec (.shr x z) s = .next t) ∧
    (∃ t, exec (.shl x y) s = .next t ∧ (x ≠ vF → (t.readV x).toNat = (s.readV x).toNat * 2 % 256) ∧
      (t.readV vF).toNat = (s.readV x).toNat / 128 ∧ t.pc = s.pc + 2 ∧
      OnlyChanges [.v x, .v vF, .pc] s t ∧ ∀ z, exec (.shl x z) s = .next t)

/-- R148: the next random byte, whichever it is, AND kk, bit by bit; the next draw is another one. That draws are
numbered is the model's choice (notes/assumptions/1.md). -/
def Obligations.RndMasksAFreshDraw : Prop :=
  ∀ (x : Reg) (kk : Byte) (s : State), ∃ t, exec (.rnd x kk) s = .next t ∧
    (∀ k, (t.readV x).getLsbD k = ((Config.rngDraw s.rngDraws).getLsbD k && kk.getLsbD k)) ∧
    t.rngDraws = s.rngDraws + 1 ∧ t.pc = s.pc + 2 ∧ OnlyChanges [.v x, .pc, .rngDraws] s t

/-! ### The address register and memory (42_index_memory.md) -/

/-- R160 to R162: I becomes nnn, I + V[x] mod 2^16, or 5 times V[x]; no flag, no fault. -/
def Obligations.AddressRegisterInstructions : Prop :=
  ∀ (x : Reg) (nnn : Addr12) (s : State),
    (∃ t, exec (.ldI nnn) s = .next t ∧ t.i.toNat = nnn.toNat ∧ t.pc = s.pc + 2 ∧ OnlyChanges [.i, .pc] s t) ∧
    (∃ t, exec (.addIVx x) s = .next t ∧ t.i.toNat = (s.i.toNat + (s.readV x).toNat) % 65536 ∧
      t.pc = s.pc + 2 ∧ OnlyChanges [.i, .pc] s t) ∧
    (∃ t, exec (.ldFVx x) s = .next t ∧ t.i.toNat = (s.readV x).toNat * 5 ∧ t.pc = s.pc + 2 ∧
      OnlyChanges [.i, .pc] s t)

/-- R163: the three decimal digits at I, I + 1, I + 2, and no other byte; above 0xFFF it faults and writes nothing. -/
def Obligations.BcdStoresTheDecimalDigits : Prop :=
  ∀ (x : Reg) (s : State),
    (s.i.toNat + 2 ≤ 0xFFF → ∃ t, exec (.ldBVx x) s = .next t ∧
      (t.mem.read s.i.toNat).toNat = (s.readV x).toNat / 100 ∧
      (t.mem.read (s.i.toNat + 1)).toNat = (s.readV x).toNat / 10 % 10 ∧
      (t.mem.read (s.i.toNat + 2)).toNat = (s.readV x).toNat % 10 ∧
      t.pc = s.pc + 2 ∧ OnlyChanges (.pc :: memParts s.memBase 3) s t) ∧
    (s.i.toNat + 2 > 0xFFF → ∃ t, exec (.ldBVx x) s = .next t ∧
      t.fault = some (faultRecordAt s .memoryOutOfRange (.ldBVx x)) ∧ OnlyChanges [.fault] s t)

/-- R164: V0 to Vx at I to I + x, and no other byte; I as before; above 0xFFF it faults and writes nothing. -/
def Obligations.BlockStoreStoresV0ToVx : Prop :=
  ∀ (x : Reg) (s : State),
    (s.i.toNat + x.val ≤ 0xFFF → ∃ t, exec (.ldMemVx x) s = .next t ∧
      (∀ r : Reg, r ≤ x → t.mem.read (s.i.toNat + r.val) = s.readV r) ∧
      t.pc = s.pc + 2 ∧ OnlyChanges (.pc :: memParts s.memBase (x.val + 1)) s t) ∧
    (s.i.toNat + x.val > 0xFFF → ∃ t, exec (.ldMemVx x) s = .next t ∧
      t.fault = some (faultRecordAt s .memoryOutOfRange (.ldMemVx x)) ∧ OnlyChanges [.fault] s t)

/-- R165: V0 to Vx from I to I + x, and no other register; I as before; above 0xFFF it faults and loads nothing. -/
def Obligations.BlockLoadLoadsV0ToVx : Prop :=
  ∀ (x : Reg) (s : State),
    (s.i.toNat + x.val ≤ 0xFFF → ∃ t, exec (.ldVxMem x) s = .next t ∧
      (∀ r : Reg, r ≤ x → t.readV r = s.mem.read (s.i.toNat + r.val)) ∧
      t.pc = s.pc + 2 ∧ OnlyChanges (.pc :: regParts x) s t) ∧
    (s.i.toNat + x.val > 0xFFF → ∃ t, exec (.ldVxMem x) s = .next t ∧
      t.fault = some (faultRecordAt s .memoryOutOfRange (.ldVxMem x)) ∧ OnlyChanges [.fault] s t)

/-- R166: a block stored and then loaded from the same I, whatever V0 to Vx hold in between, comes back exactly; I is
unchanged by either. -/
def Obligations.BlockStoreThenLoadRestores : Prop :=
  ∀ (x : Reg) (s t u : State), s.i.toNat + x.val ≤ 0xFFF → exec (.ldMemVx x) s = .next t →
    OnlyChanges (.pc :: regParts x) t u →
    ∃ w, exec (.ldVxMem x) u = .next w ∧ w.i = s.i ∧ ∀ r : Reg, r ≤ x → w.readV r = s.readV r

/-- R60: a byte stored is seen by the very next fetch: a block store over the next word replaces it. -/
def Obligations.StoredBytesAreFetchedNext : Prop :=
  ∀ (x : Reg) (s t : State), s.i = s.pc + 2 → s.i.toNat + x.val ≤ 0xFFF → 1 ≤ x.val →
    exec (.ldMemVx x) s = .next t → t.fetch = some (s.readV 0 ++ s.readV 1)

/-! ### The display (43_display.md) -/

/-- R181: the toggle primitive: the cell at the coordinates mod 64 and mod 32 is inverted, no other changes, and it
reports whether the cell was lit before. -/
def Obligations.ToggleWrapsAndInverts : Prop :=
  ∀ (d : Display) (cx cy : Nat) (x : Fin 64) (y : Fin 32),
    (d.toggle cx cy).1.lit x y =
      (if x.val = cx % 64 ∧ y.val = cy % 32 then !d.lit x y else d.lit x y) ∧
    (x.val = cx % 64 → y.val = cy % 32 → (d.toggle cx cy).2 = d.lit x y)

/-- R180: CLS makes every cell unlit; nothing else changes but pc. -/
def Obligations.ClsClearsEveryCell : Prop :=
  ∀ s : State, ∃ t, exec .cls s = .next t ∧ (∀ x y, t.disp.lit x y = false) ∧ t.pc = s.pc + 2 ∧
    ∀ p : Part, p ≠ .pc → (∀ x y, p ≠ .pixel x y) → p.same s t

/-- R182, R186: DRW inverts exactly the cells under the sprite's 1 bits, wrapping at the edges, and VF is 1 exactly
when one of them was lit; with n = 0 that is nothing, VF = 0 and no range check; a sprite byte above 0xFFF faults
and changes nothing. -/
def Obligations.DrawInvertsTheCellsUnderTheSprite : Prop :=
  ∀ (x y : Reg) (n : Nibble) (s : State),
    (n = 0 ∨ s.i.toNat + n.toNat - 1 ≤ 0xFFF → ∃ t, exec (.drw x y n) s = .next t ∧
      (∀ cx cy, s.UnderSprite x y n cx cy → t.disp.lit cx cy = !s.disp.lit cx cy) ∧
      (∀ cx cy, ¬ s.UnderSprite x y n cx cy → t.disp.lit cx cy = s.disp.lit cx cy) ∧
      (t.readV vF = 0 ∨ t.readV vF = 1) ∧
      (t.readV vF = 1 ↔ ∃ cx cy, s.UnderSprite x y n cx cy ∧ s.disp.lit cx cy = true) ∧
      t.pc = s.pc + 2 ∧ ∀ p : Part, p ≠ .pc → p ≠ .v vF → (∀ cx cy, p ≠ .pixel cx cy) → p.same s t) ∧
    (n ≠ 0 → s.i.toNat + n.toNat - 1 > 0xFFF → ∃ t, exec (.drw x y n) s = .next t ∧
      t.fault = some (faultRecordAt s .memoryOutOfRange (.drw x y n)) ∧ OnlyChanges [.fault] s t)

/-- R184: the same sprite drawn twice leaves the display as it was, and the second draw's VF is 1 exactly when the
first turned some cell from unlit to lit; x and y are not F. -/
def Obligations.DrawingTwiceRestoresTheDisplay : Prop :=
  ∀ (x y : Reg) (n : Nibble) (s : State), x ≠ vF → y ≠ vF → (n = 0 ∨ s.i.toNat + n.toNat - 1 ≤ 0xFFF) →
    ∃ t u, exec (.drw x y n) s = .next t ∧ exec (.drw x y n) t = .next u ∧ u.disp = s.disp ∧
      (u.readV vF = 1 ↔ ∃ cx cy, s.disp.lit cx cy = false ∧ t.disp.lit cx cy = true)

/-! ### Keys and timers (44_keyboard_timers.md) -/

/-- R204, R205, R211: the key skips; a key number above 0x0F faults and nothing else changes. -/
def Obligations.KeySkipsReadTheKey : Prop :=
  ∀ (x : Reg) (s : State),
    (∀ k : Key, (s.readV x).toNat = k.val →
      (∃ t, exec (.skp x) s = .next t ∧ OnlyChanges [.pc] s t ∧
        t.pc = s.pc + (if s.keyDown? k = true then 4 else 2)) ∧
      (∃ t, exec (.sknp x) s = .next t ∧ OnlyChanges [.pc] s t ∧
        t.pc = s.pc + (if s.keyDown? k = true then 2 else 4))) ∧
    ((s.readV x).toNat > 0x0F →
      (∃ t, exec (.skp x) s = .next t ∧ t.fault = some (faultRecordAt s .keyIndexOutOfRange (.skp x)) ∧
        OnlyChanges [.fault] s t) ∧
      (∃ t, exec (.sknp x) s = .next t ∧ t.fault = some (faultRecordAt s .keyIndexOutOfRange (.sknp x)) ∧
        OnlyChanges [.fault] s t))

/-- R206: Fx0A sets `wait` and leaves everything else, pc too, whatever key is held. -/
def Obligations.KeyWaitStarts : Prop :=
  ∀ (x : Reg) (s : State), ∃ t, exec (.ldVxK x) s = .next t ∧ t.wait = some x ∧ OnlyChanges [.wait] s t

/-- R208 to R210: the timer instructions. -/
def Obligations.TimerInstructions : Prop :=
  ∀ (x : Reg) (s : State),
    (∃ t, exec (.ldVxDt x) s = .next t ∧ t.readV x = s.dt ∧ t.pc = s.pc + 2 ∧ OnlyChanges [.v x, .pc] s t) ∧
    (∃ t, exec (.ldDtVx x) s = .next t ∧ t.dt = s.readV x ∧ t.pc = s.pc + 2 ∧ OnlyChanges [.dt, .pc] s t) ∧
    (∃ t, exec (.ldStVx x) s = .next t ∧ t.st = s.readV x ∧ t.pc = s.pc + 2 ∧ OnlyChanges [.st, .pc] s t)

/-- R200 to R203: key events. A key that goes from up to down while a capture is pending, not paused and not faulted,
completes it: V[x] = k, pc + 2, wait none; any other key down only sets the key; key up only clears it. -/
def Obligations.KeyEventsAndCapture : Prop :=
  ∀ (s : State) (k : Key),
    (∀ x, s.wait = some x → s.paused = false → s.fault = none → s.keyDown? k = false →
      (s.keyDown k).keyDown? k = true ∧ ((s.keyDown k).readV x).toNat = k.val ∧ (s.keyDown k).pc = s.pc + 2 ∧
      (s.keyDown k).wait = none ∧ OnlyChanges [.key k, .v x, .pc, .wait] s (s.keyDown k)) ∧
    (s.wait = none ∨ s.paused = true ∨ s.fault ≠ none ∨ s.keyDown? k = true →
      (s.keyDown k).keyDown? k = true ∧ OnlyChanges [.key k] s (s.keyDown k)) ∧
    ((s.keyUp k).keyDown? k = false ∧ OnlyChanges [.key k] s (s.keyUp k))

/-- R213, R27: from the step that starts a wait, no step changes anything until a key goes down; then the key's number is
in Vx and pc is past the Fx0A. A wait that has started, whatever event comes, is kept with pc and every register as they
were, or ends: by a load, or by a key that goes from up to down on a core that is not paused and not faulted. -/
def Obligations.WaitEndsOnlyWithAKey : Prop :=
  (∀ (s t : State) (x : Reg) (k : Key), s.Runs → step s = .next t → t.wait = some x →
    step t = .next t ∧ (s.keyDown? k = false → (t.keyDown k).Runs ∧ ((t.keyDown k).readV x).toNat = k.val ∧
      (t.keyDown k).pc = s.pc + 2)) ∧
  (∀ (s : State) (x : Reg), s.wait = some x → step s = .next s) ∧
  (∀ (c : Config) (e : Event) (s t : State) (q : Reply) (x : Reg), s.wait = some x →
    applyEvent c e s = .next (t, q) →
    (t.wait = some x ∧ t.pc = s.pc ∧ ∀ r, t.readV r = s.readV r) ∨
    (t.wait = none ∧ ((∃ rom, e = .load rom) ∨
      ∃ k : Key, e = .keyDown k.val ∧ s.keyDown? k = false ∧ s.paused = false ∧ s.fault = none)))

/-! ### Timers, frames and the scheduler (60_exceptions.md) -/

/-- R240: both timers go down by one, floored at zero, independently; nothing else changes. -/
def Obligations.TickDecrementsBothTimers : Prop :=
  ∀ s : State, s.tickTimers.dt.toNat = s.dt.toNat - 1 ∧ s.tickTimers.st.toNat = s.st.toNat - 1 ∧
    OnlyChanges [.dt, .st] s s.tickTimers

/-- R243: a timer set to v is at max(v - k, 0) after k ticks, so at 0 after exactly v. -/
def Obligations.TimerReachesZeroAfterItsCount : Prop :=
  ∀ (s : State) (k : Nat), (State.tickTimers^[k] s).dt.toNat = s.dt.toNat - k ∧
    (State.tickTimers^[k] s).st.toNat = s.st.toNat - k

/-- R233, R242, R245: a frame while faulted or paused changes nothing; a frame that begins while the core waits makes
no step and ticks only if TIMERS_RUN_WHILE_AWAITING (R241). -/
def Obligations.HaltedPausedAndWaitingFrames : Prop :=
  ∀ (c : Config) (s : State),
    (s.fault ≠ none ∨ s.paused = true → frame c s = .next s) ∧
    (s.fault = none → s.paused = false → s.wait ≠ none →
      frame c s = .next (if c.timersRunWhileAwaiting = true then s.tickTimers else s))

/-- R245, R246: a running frame ticks first, then makes a number m of steps: all of its budget, or fewer because the
last of them started a wait or recorded a fault; before each step the core ran. -/
def Obligations.FrameTicksThenSpendsItsBudget : Prop :=
  ∀ (c : Config) (s t : State), s.Runs → frame c s = .next t →
    ∃ m, m ≤ c.ipt ∧ Host.Core.run Sys2Proof.core m s.tickTimers = .next t ∧
      (m = c.ipt ∨ t.wait ≠ none ∨ t.fault ≠ none) ∧
      ∀ j u, j < m → Host.Core.run Sys2Proof.core j s.tickTimers = .next u → u.Runs

/-- R247: `advance` is the loop of the rule: a period off the accumulator and a frame while it holds a full period,
and no frame once it does not. -/
def Obligations.AdvanceIsTheSchedulerLoop : Prop :=
  ∀ (c : Config) (e : Nat) (s : State),
    (s.lag + e < c.tickPeriod → advance c e s = .next { s with lag := s.lag + e }) ∧
    (c.tickPeriod ≤ s.lag + e → advance c e s =
      Result.andThen (frame c { s with lag := s.lag + e - c.tickPeriod }) (advance c 0))

/-- R248: how the elapsed time is split into calls does not matter, with no other event in between, and the
accumulator is left below one period. The unit of time is the model's choice (notes/assumptions/3.md). -/
def Obligations.AdvanceDoesNotDependOnTheSplit : Prop :=
  ∀ (c : Config) (d e : Nat) (s t : State), advance c d s = .next t →
    advance c e t = advance c (d + e) s ∧ t.lag = (s.lag + d) % c.tickPeriod

/-- R250: a pause toggle changes `paused` and nothing else, and a second one undoes it. -/
def Obligations.PauseToggleChangesOnlyPaused : Prop :=
  ∀ s : State, s.pauseToggle.paused = !s.paused ∧ OnlyChanges [.paused] s s.pauseToggle ∧
    s.pauseToggle.pauseToggle = s

/-! ### Loading and outputs -/

/-- R253, R270, R35: a program image of more than 3584 bytes is rejected and nothing changes; any other gives every
piece of state its reset value, from any state. -/
def Obligations.LoadResetsOrRejects : Prop :=
  ∀ (c : Config) (rom : List Byte) (s : State),
    (3584 < rom.length → applyEvent c (.load rom) s = .next (s, .rejected .programTooLarge)) ∧
    (rom.length ≤ 3584 → ∃ t, applyEvent c (.load rom) s = .next (t, .done) ∧
      (∀ a, t.mem.read a =
        if h : a < 80 then c.font[a] else
        if 0x200 ≤ a ∧ a < 0x200 + rom.length then rom.getD (a - 0x200) 0 else 0) ∧
      (∀ x, t.readV x = 0) ∧ t.i = 0 ∧ t.pc = 0x200 ∧ t.sp = 0 ∧ (∀ j, t.stackEntry j = 0) ∧
      t.dt = 0 ∧ t.st = 0 ∧ (∀ x y, t.pixel x y = false) ∧ (∀ k, t.keyDown? k = false) ∧
      t.wait = none ∧ t.paused = false ∧ t.fault = none ∧ t.lag = 0)

/-- R257: a key event with a number above 15 is refused; R27, R10, R258: what the status and the sound output say.
The order of the status is the model's reading (notes/assumptions/12.md), the reply to a bad key its form (13.md). -/
def Obligations.KeyNumbersAndOutputs : Prop :=
  (∀ (c : Config) (s : State) (k : Nat), 15 < k →
    applyEvent c (.keyDown k) s = .refused (.notAnEvent k) ∧ applyEvent c (.keyUp k) s = .refused (.notAnEvent k)) ∧
  (∀ s : State, (s.status = .running ↔ s.Runs) ∧
    (∀ r, s.status = .faulted r ↔ s.fault = some r) ∧
    (s.status = .paused ↔ s.fault = none ∧ s.paused = true) ∧
    (∀ x, s.status = .awaitingKey x ↔ s.fault = none ∧ s.paused = false ∧ s.wait = some x) ∧
    (s.soundOn = true ↔ s.st.toNat ≠ 0))
end

