-- ==== Sys2Proof/Laws/Decode.lean ====
section
/-! SUPPORT. The bits of an encoded word, the fields read back from it, and a word rebuilt from its fields: the small
lemmas of Decode.lean, so that proofs about decoding need not unfold a concatenation. -/

namespace Sys2Proof

@[simp] theorem bitsOfReg_regOfBits (b : Nibble) : bitsOfReg (regOfBits b) = b := rfl

@[simp] theorem regOfBits_bitsOfReg (r : Reg) : regOfBits (bitsOfReg r) = r := rfl

/-! ### Bits of the encodings -/

theorem encodeAddr_getLsbD (c : Nibble) (nnn : Addr12) (k : Nat) :
    (encodeAddr c nnn).getLsbD k = if k < 12 then nnn.getLsbD k else c.getLsbD (k - 12) :=
  BitVec.getLsbD_append

theorem encodeXKK_getLsbD (c : Nibble) (x : Reg) (kk : Byte) (k : Nat) :
    (encodeXKK c x kk).getLsbD k =
      if k < 8 then kk.getLsbD k
      else if k - 8 < 4 then (bitsOfReg x).getLsbD (k - 8) else c.getLsbD (k - 8 - 4) := by
  rw [show (encodeXKK c x kk).getLsbD k =
    if k < 8 then kk.getLsbD k else (c ++ bitsOfReg x).getLsbD (k - 8) from BitVec.getLsbD_append]
  rw [BitVec.getLsbD_append]

theorem encodeXYN_getLsbD (c : Nibble) (x y : Reg) (n : Nibble) (k : Nat) :
    (encodeXYN c x y n).getLsbD k =
      if k < 8 then (if k < 4 then n.getLsbD k else (bitsOfReg y).getLsbD (k - 4))
      else if k - 8 < 4 then (bitsOfReg x).getLsbD (k - 8) else c.getLsbD (k - 8 - 4) := by
  rw [show (encodeXYN c x y n).getLsbD k =
    if k < 8 then (bitsOfReg y ++ n).getLsbD k else (c ++ bitsOfReg x).getLsbD (k - 8)
    from BitVec.getLsbD_append]
  rw [BitVec.getLsbD_append, BitVec.getLsbD_append]

/-! ### Fields of an encoded word -/

@[simp] theorem fieldClass_encodeAddr (c : Nibble) (nnn : Addr12) : fieldClass (encodeAddr c nnn) = c := by
  apply BitVec.eq_of_getLsbD_eq
  intro k hk
  simp [fieldClass, encodeAddr_getLsbD, hk]

@[simp] theorem fieldNNN_encodeAddr (c : Nibble) (nnn : Addr12) : fieldNNN (encodeAddr c nnn) = nnn := by
  apply BitVec.eq_of_getLsbD_eq
  intro k hk
  simp [fieldNNN, encodeAddr_getLsbD, hk]

@[simp] theorem fieldClass_encodeXKK (c : Nibble) (x : Reg) (kk : Byte) : fieldClass (encodeXKK c x kk) = c := by
  apply BitVec.eq_of_getLsbD_eq
  intro k hk
  have h1 : ¬ 12 + k < 8 := by omega
  have h2 : ¬ 12 + k - 8 < 4 := by omega
  have h3 : 12 + k - 8 - 4 = k := by omega
  simp only [fieldClass, BitVec.getLsbD_extractLsb', hk, encodeXKK_getLsbD, h1, h2, h3, if_false,
    decide_true, Bool.true_and]

theorem xBits_encodeXKK (c : Nibble) (x : Reg) (kk : Byte) :
    (encodeXKK c x kk).extractLsb' 8 4 = bitsOfReg x := by
  apply BitVec.eq_of_getLsbD_eq
  intro k hk
  simp [encodeXKK_getLsbD, hk]

@[simp] theorem fieldX_encodeXKK (c : Nibble) (x : Reg) (kk : Byte) : fieldX (encodeXKK c x kk) = x := by
  rw [fieldX, xBits_encodeXKK, regOfBits_bitsOfReg]

@[simp] theorem fieldKK_encodeXKK (c : Nibble) (x : Reg) (kk : Byte) : fieldKK (encodeXKK c x kk) = kk := by
  apply BitVec.eq_of_getLsbD_eq
  intro k hk
  simp [fieldKK, encodeXKK_getLsbD, hk]

@[simp] theorem fieldClass_encodeXYN (c : Nibble) (x y : Reg) (n : Nibble) :
    fieldClass (encodeXYN c x y n) = c := by
  apply BitVec.eq_of_getLsbD_eq
  intro k hk
  have h1 : ¬ 12 + k < 8 := by omega
  have h2 : ¬ 12 + k - 8 < 4 := by omega
  have h3 : 12 + k - 8 - 4 = k := by omega
  simp only [fieldClass, BitVec.getLsbD_extractLsb', hk, encodeXYN_getLsbD, h1, h2, h3, if_false,
    decide_true, Bool.true_and]

@[simp] theorem fieldX_encodeXYN (c : Nibble) (x y : Reg) (n : Nibble) : fieldX (encodeXYN c x y n) = x := by
  have h : (encodeXYN c x y n).extractLsb' 8 4 = bitsOfReg x := by
    apply BitVec.eq_of_getLsbD_eq
    intro k hk
    simp [encodeXYN_getLsbD, hk]
  rw [fieldX, h, regOfBits_bitsOfReg]

@[simp] theorem fieldY_encodeXYN (c : Nibble) (x y : Reg) (n : Nibble) : fieldY (encodeXYN c x y n) = y := by
  have h : (encodeXYN c x y n).extractLsb' 4 4 = bitsOfReg y := by
    apply BitVec.eq_of_getLsbD_eq
    intro k hk
    have h1 : 4 + k < 8 := by omega
    simp [encodeXYN_getLsbD, hk, h1]
  rw [fieldY, h, regOfBits_bitsOfReg]

@[simp] theorem fieldN_encodeXYN (c : Nibble) (x y : Reg) (n : Nibble) : fieldN (encodeXYN c x y n) = n := by
  apply BitVec.eq_of_getLsbD_eq
  intro k hk
  have h1 : k < 8 := by omega
  simp [fieldN, encodeXYN_getLsbD, hk, h1]

/-! ### A word rebuilt from its fields -/

theorem encodeAddr_fields (op : Word) : encodeAddr (fieldClass op) (fieldNNN op) = op := by
  apply BitVec.eq_of_getLsbD_eq
  intro k hk
  rw [encodeAddr_getLsbD]
  split
  · simp [fieldNNN, *]
  · have h1 : k - 12 < 4 := by omega
    have h2 : 12 + (k - 12) = k := by omega
    simp [fieldClass, h1, h2]

theorem encodeXKK_fields (op : Word) : encodeXKK (fieldClass op) (fieldX op) (fieldKK op) = op := by
  apply BitVec.eq_of_getLsbD_eq
  intro k hk
  rw [encodeXKK_getLsbD]
  split
  · simp [fieldKK, *]
  · split
    · have h2 : 8 + (k - 8) = k := by omega
      simp [fieldX, *]
    · have h1 : k - 8 - 4 < 4 := by omega
      have h2 : 12 + (k - 8 - 4) = k := by omega
      simp [fieldClass, h1, h2]

theorem encodeXYN_fields (op : Word) : encodeXYN (fieldClass op) (fieldX op) (fieldY op) (fieldN op) = op := by
  apply BitVec.eq_of_getLsbD_eq
  intro k hk
  rw [encodeXYN_getLsbD]
  split
  · split
    · simp [fieldN, *]
    · have h1 : k - 4 < 4 := by omega
      have h2 : 4 + (k - 4) = k := by omega
      simp [fieldY, h1, h2]
  · split
    · have h2 : 8 + (k - 8) = k := by omega
      simp [fieldX, *]
    · have h1 : k - 8 - 4 < 4 := by omega
      have h2 : 12 + (k - 8 - 4) = k := by omega
      simp [fieldClass, h1, h2]

/-! ### The decoder refuses a word by its own name -/

/-- A refusal names the word that was refused (30_encoding.md R77). -/
theorem decode_error {op : Word} {e : DecodeError} (h : decode op = .error e) : e = .illegalOpcode op := by
  unfold decode at h
  split at h <;> try exact absurd h (by simp)
  all_goals
    first
    | unfold decodeZeroNibble at h
    | unfold decodeClass8 at h
    | unfold decodeClassE at h
    | unfold decodeClassF at h
    split at h <;> simp_all

/-! ### Bytes of a word -/

@[simp] theorem wordOfBytes_bytes (op : Word) : wordOfBytes (firstByte op) (secondByte op) = op := by
  apply BitVec.eq_of_getLsbD_eq
  intro k hk
  rw [show (wordOfBytes (firstByte op) (secondByte op)).getLsbD k =
    if k < 8 then (secondByte op).getLsbD k else (firstByte op).getLsbD (k - 8) from BitVec.getLsbD_append]
  split
  · simp [secondByte, *]
  · have h1 : k - 8 < 8 := by omega
    have h2 : 8 + (k - 8) = k := by omega
    simp [firstByte, h1, h2]

@[simp] theorem firstByte_wordOfBytes (a b : Byte) : firstByte (wordOfBytes a b) = a := by
  apply BitVec.eq_of_getLsbD_eq
  intro k hk
  have h : (wordOfBytes a b).getLsbD (8 + k) =
    if 8 + k < 8 then b.getLsbD (8 + k) else a.getLsbD (8 + k - 8) := BitVec.getLsbD_append
  simp [firstByte, h, hk]

@[simp] theorem secondByte_wordOfBytes (a b : Byte) : secondByte (wordOfBytes a b) = b := by
  apply BitVec.eq_of_getLsbD_eq
  intro k hk
  have h : (wordOfBytes a b).getLsbD k =
    if k < 8 then b.getLsbD k else a.getLsbD (k - 8) := BitVec.getLsbD_append
  simp [secondByte, h, hk]

/-! ### Masks of R76 on an encoded word -/

theorem encodeAddr_mask (c : Nibble) (nnn : Addr12) : encodeAddr c nnn &&& 0xF000 = encodeAddr c 0 := by
  apply BitVec.eq_of_getLsbD_eq
  intro k hk
  simp only [BitVec.getLsbD_and, encodeAddr_getLsbD]
  interval_cases k <;> simp

theorem encodeXKK_mask_class (c : Nibble) (x : Reg) (kk : Byte) :
    encodeXKK c x kk &&& 0xF000 = encodeXKK c 0 0 := by
  apply BitVec.eq_of_getLsbD_eq
  intro k hk
  simp only [BitVec.getLsbD_and, encodeXKK_getLsbD]
  interval_cases k <;> simp [bitsOfReg]

theorem encodeXKK_mask_sub (c : Nibble) (x : Reg) (kk : Byte) :
    encodeXKK c x kk &&& 0xF0FF = encodeXKK c 0 kk := by
  apply BitVec.eq_of_getLsbD_eq
  intro k hk
  simp only [BitVec.getLsbD_and, encodeXKK_getLsbD]
  interval_cases k <;> simp [bitsOfReg]

theorem encodeXYN_mask_class (c : Nibble) (x y : Reg) (n : Nibble) :
    encodeXYN c x y n &&& 0xF000 = encodeXYN c 0 0 0 := by
  apply BitVec.eq_of_getLsbD_eq
  intro k hk
  simp only [BitVec.getLsbD_and, encodeXYN_getLsbD]
  interval_cases k <;> simp [bitsOfReg]

theorem encodeXYN_mask_sub (c : Nibble) (x y : Reg) (n : Nibble) :
    encodeXYN c x y n &&& 0xF00F = encodeXYN c 0 0 n := by
  apply BitVec.eq_of_getLsbD_eq
  intro k hk
  simp only [BitVec.getLsbD_and, encodeXYN_getLsbD]
  interval_cases k <;> simp [bitsOfReg]

end Sys2Proof
end

