-- ==== Sys2Proof/Laws/State.lean ====
section
/-! SUPPORT. One lemma per field per update of the state, true by rfl, so that no later proof unfolds a record
update. -/

namespace Sys2Proof.Machine

variable (s : State)

/-! ### writeV -/

@[simp] theorem State.writeV_mem (x : Reg) (b : Byte) : (s.writeV x b).mem = s.mem := rfl
@[simp] theorem State.writeV_v (x : Reg) (b : Byte) : (s.writeV x b).v = s.v.set x b := rfl
@[simp] theorem State.writeV_i (x : Reg) (b : Byte) : (s.writeV x b).i = s.i := rfl
@[simp] theorem State.writeV_pc (x : Reg) (b : Byte) : (s.writeV x b).pc = s.pc := rfl
@[simp] theorem State.writeV_sp (x : Reg) (b : Byte) : (s.writeV x b).sp = s.sp := rfl
@[simp] theorem State.writeV_stack (x : Reg) (b : Byte) : (s.writeV x b).stack = s.stack := rfl
@[simp] theorem State.writeV_dt (x : Reg) (b : Byte) : (s.writeV x b).dt = s.dt := rfl
@[simp] theorem State.writeV_st (x : Reg) (b : Byte) : (s.writeV x b).st = s.st := rfl
@[simp] theorem State.writeV_disp (x : Reg) (b : Byte) : (s.writeV x b).disp = s.disp := rfl
@[simp] theorem State.writeV_keys (x : Reg) (b : Byte) : (s.writeV x b).keys = s.keys := rfl
@[simp] theorem State.writeV_wait (x : Reg) (b : Byte) : (s.writeV x b).wait = s.wait := rfl
@[simp] theorem State.writeV_paused (x : Reg) (b : Byte) : (s.writeV x b).paused = s.paused := rfl
@[simp] theorem State.writeV_fault (x : Reg) (b : Byte) : (s.writeV x b).fault = s.fault := rfl
@[simp] theorem State.writeV_lag (x : Reg) (b : Byte) : (s.writeV x b).lag = s.lag := rfl
@[simp] theorem State.writeV_rngDraws (x : Reg) (b : Byte) : (s.writeV x b).rngDraws = s.rngDraws := rfl

/-! ### setI -/

@[simp] theorem State.setI_mem (a : Word) : (s.setI a).mem = s.mem := rfl
@[simp] theorem State.setI_v (a : Word) : (s.setI a).v = s.v := rfl
@[simp] theorem State.setI_i (a : Word) : (s.setI a).i = a := rfl
@[simp] theorem State.setI_pc (a : Word) : (s.setI a).pc = s.pc := rfl
@[simp] theorem State.setI_sp (a : Word) : (s.setI a).sp = s.sp := rfl
@[simp] theorem State.setI_stack (a : Word) : (s.setI a).stack = s.stack := rfl
@[simp] theorem State.setI_dt (a : Word) : (s.setI a).dt = s.dt := rfl
@[simp] theorem State.setI_st (a : Word) : (s.setI a).st = s.st := rfl
@[simp] theorem State.setI_disp (a : Word) : (s.setI a).disp = s.disp := rfl
@[simp] theorem State.setI_keys (a : Word) : (s.setI a).keys = s.keys := rfl
@[simp] theorem State.setI_wait (a : Word) : (s.setI a).wait = s.wait := rfl
@[simp] theorem State.setI_paused (a : Word) : (s.setI a).paused = s.paused := rfl
@[simp] theorem State.setI_fault (a : Word) : (s.setI a).fault = s.fault := rfl
@[simp] theorem State.setI_lag (a : Word) : (s.setI a).lag = s.lag := rfl
@[simp] theorem State.setI_rngDraws (a : Word) : (s.setI a).rngDraws = s.rngDraws := rfl

/-! ### fallThrough -/

@[simp] theorem State.fallThrough_mem : s.fallThrough.mem = s.mem := rfl
@[simp] theorem State.fallThrough_v : s.fallThrough.v = s.v := rfl
@[simp] theorem State.fallThrough_i : s.fallThrough.i = s.i := rfl
@[simp] theorem State.fallThrough_pc : s.fallThrough.pc = s.pc + 2 := rfl
@[simp] theorem State.fallThrough_sp : s.fallThrough.sp = s.sp := rfl
@[simp] theorem State.fallThrough_stack : s.fallThrough.stack = s.stack := rfl
@[simp] theorem State.fallThrough_dt : s.fallThrough.dt = s.dt := rfl
@[simp] theorem State.fallThrough_st : s.fallThrough.st = s.st := rfl
@[simp] theorem State.fallThrough_disp : s.fallThrough.disp = s.disp := rfl
@[simp] theorem State.fallThrough_keys : s.fallThrough.keys = s.keys := rfl
@[simp] theorem State.fallThrough_wait : s.fallThrough.wait = s.wait := rfl
@[simp] theorem State.fallThrough_paused : s.fallThrough.paused = s.paused := rfl
@[simp] theorem State.fallThrough_fault : s.fallThrough.fault = s.fault := rfl
@[simp] theorem State.fallThrough_lag : s.fallThrough.lag = s.lag := rfl
@[simp] theorem State.fallThrough_rngDraws : s.fallThrough.rngDraws = s.rngDraws := rfl

/-! ### jumpTo -/

@[simp] theorem State.jumpTo_mem (a : Word) : (s.jumpTo a).mem = s.mem := rfl
@[simp] theorem State.jumpTo_v (a : Word) : (s.jumpTo a).v = s.v := rfl
@[simp] theorem State.jumpTo_i (a : Word) : (s.jumpTo a).i = s.i := rfl
@[simp] theorem State.jumpTo_pc (a : Word) : (s.jumpTo a).pc = a := rfl
@[simp] theorem State.jumpTo_sp (a : Word) : (s.jumpTo a).sp = s.sp := rfl
@[simp] theorem State.jumpTo_stack (a : Word) : (s.jumpTo a).stack = s.stack := rfl
@[simp] theorem State.jumpTo_dt (a : Word) : (s.jumpTo a).dt = s.dt := rfl
@[simp] theorem State.jumpTo_st (a : Word) : (s.jumpTo a).st = s.st := rfl
@[simp] theorem State.jumpTo_disp (a : Word) : (s.jumpTo a).disp = s.disp := rfl
@[simp] theorem State.jumpTo_keys (a : Word) : (s.jumpTo a).keys = s.keys := rfl
@[simp] theorem State.jumpTo_wait (a : Word) : (s.jumpTo a).wait = s.wait := rfl
@[simp] theorem State.jumpTo_paused (a : Word) : (s.jumpTo a).paused = s.paused := rfl
@[simp] theorem State.jumpTo_fault (a : Word) : (s.jumpTo a).fault = s.fault := rfl
@[simp] theorem State.jumpTo_lag (a : Word) : (s.jumpTo a).lag = s.lag := rfl
@[simp] theorem State.jumpTo_rngDraws (a : Word) : (s.jumpTo a).rngDraws = s.rngDraws := rfl

/-! ### raise -/

@[simp] theorem State.raise_mem (k : FaultKind) (op : Option Word) : (s.raise k op).mem = s.mem := rfl
@[simp] theorem State.raise_v (k : FaultKind) (op : Option Word) : (s.raise k op).v = s.v := rfl
@[simp] theorem State.raise_i (k : FaultKind) (op : Option Word) : (s.raise k op).i = s.i := rfl
@[simp] theorem State.raise_pc (k : FaultKind) (op : Option Word) : (s.raise k op).pc = s.pc := rfl
@[simp] theorem State.raise_sp (k : FaultKind) (op : Option Word) : (s.raise k op).sp = s.sp := rfl
@[simp] theorem State.raise_stack (k : FaultKind) (op : Option Word) : (s.raise k op).stack = s.stack := rfl
@[simp] theorem State.raise_dt (k : FaultKind) (op : Option Word) : (s.raise k op).dt = s.dt := rfl
@[simp] theorem State.raise_st (k : FaultKind) (op : Option Word) : (s.raise k op).st = s.st := rfl
@[simp] theorem State.raise_disp (k : FaultKind) (op : Option Word) : (s.raise k op).disp = s.disp := rfl
@[simp] theorem State.raise_keys (k : FaultKind) (op : Option Word) : (s.raise k op).keys = s.keys := rfl
@[simp] theorem State.raise_wait (k : FaultKind) (op : Option Word) : (s.raise k op).wait = s.wait := rfl
@[simp] theorem State.raise_paused (k : FaultKind) (op : Option Word) : (s.raise k op).paused = s.paused := rfl
@[simp] theorem State.raise_fault (k : FaultKind) (op : Option Word) : (s.raise k op).fault = some ⟨k, s.pc, op⟩ := rfl
@[simp] theorem State.raise_lag (k : FaultKind) (op : Option Word) : (s.raise k op).lag = s.lag := rfl
@[simp] theorem State.raise_rngDraws (k : FaultKind) (op : Option Word) : (s.raise k op).rngDraws = s.rngDraws := rfl

/-! ### push -/

@[simp] theorem State.push_mem (a : Word) : (s.push a).mem = s.mem := rfl
@[simp] theorem State.push_v (a : Word) : (s.push a).v = s.v := rfl
@[simp] theorem State.push_i (a : Word) : (s.push a).i = s.i := rfl
@[simp] theorem State.push_pc (a : Word) : (s.push a).pc = s.pc := rfl
@[simp] theorem State.push_sp (a : Word) : (s.push a).sp = s.sp + 1 := rfl
@[simp] theorem State.push_stack (a : Word) : (s.push a).stack = s.stack.set (fin16 s.sp.toNat) a := rfl
@[simp] theorem State.push_dt (a : Word) : (s.push a).dt = s.dt := rfl
@[simp] theorem State.push_st (a : Word) : (s.push a).st = s.st := rfl
@[simp] theorem State.push_disp (a : Word) : (s.push a).disp = s.disp := rfl
@[simp] theorem State.push_keys (a : Word) : (s.push a).keys = s.keys := rfl
@[simp] theorem State.push_wait (a : Word) : (s.push a).wait = s.wait := rfl
@[simp] theorem State.push_paused (a : Word) : (s.push a).paused = s.paused := rfl
@[simp] theorem State.push_fault (a : Word) : (s.push a).fault = s.fault := rfl
@[simp] theorem State.push_lag (a : Word) : (s.push a).lag = s.lag := rfl
@[simp] theorem State.push_rngDraws (a : Word) : (s.push a).rngDraws = s.rngDraws := rfl

/-! ### pop -/

@[simp] theorem State.pop_mem : s.pop.mem = s.mem := rfl
@[simp] theorem State.pop_v : s.pop.v = s.v := rfl
@[simp] theorem State.pop_i : s.pop.i = s.i := rfl
@[simp] theorem State.pop_pc : s.pop.pc = s.pc := rfl
@[simp] theorem State.pop_sp : s.pop.sp = s.sp - 1 := rfl
@[simp] theorem State.pop_stack : s.pop.stack = s.stack := rfl
@[simp] theorem State.pop_dt : s.pop.dt = s.dt := rfl
@[simp] theorem State.pop_st : s.pop.st = s.st := rfl
@[simp] theorem State.pop_disp : s.pop.disp = s.disp := rfl
@[simp] theorem State.pop_keys : s.pop.keys = s.keys := rfl
@[simp] theorem State.pop_wait : s.pop.wait = s.wait := rfl
@[simp] theorem State.pop_paused : s.pop.paused = s.paused := rfl
@[simp] theorem State.pop_fault : s.pop.fault = s.fault := rfl
@[simp] theorem State.pop_lag : s.pop.lag = s.lag := rfl
@[simp] theorem State.pop_rngDraws : s.pop.rngDraws = s.rngDraws := rfl

/-! ### afterDraw -/

@[simp] theorem State.afterDraw_mem : s.afterDraw.mem = s.mem := rfl
@[simp] theorem State.afterDraw_v : s.afterDraw.v = s.v := rfl
@[simp] theorem State.afterDraw_i : s.afterDraw.i = s.i := rfl
@[simp] theorem State.afterDraw_pc : s.afterDraw.pc = s.pc := rfl
@[simp] theorem State.afterDraw_sp : s.afterDraw.sp = s.sp := rfl
@[simp] theorem State.afterDraw_stack : s.afterDraw.stack = s.stack := rfl
@[simp] theorem State.afterDraw_dt : s.afterDraw.dt = s.dt := rfl
@[simp] theorem State.afterDraw_st : s.afterDraw.st = s.st := rfl
@[simp] theorem State.afterDraw_disp : s.afterDraw.disp = s.disp := rfl
@[simp] theorem State.afterDraw_keys : s.afterDraw.keys = s.keys := rfl
@[simp] theorem State.afterDraw_wait : s.afterDraw.wait = s.wait := rfl
@[simp] theorem State.afterDraw_paused : s.afterDraw.paused = s.paused := rfl
@[simp] theorem State.afterDraw_fault : s.afterDraw.fault = s.fault := rfl
@[simp] theorem State.afterDraw_lag : s.afterDraw.lag = s.lag := rfl
@[simp] theorem State.afterDraw_rngDraws : s.afterDraw.rngDraws = s.rngDraws + 1 := rfl

/-! ### writeWithFlag -/

@[simp] theorem State.writeWithFlag_mem (x : Reg) (b : Byte) (f : Bool) : (s.writeWithFlag x b f).mem = s.mem := rfl
@[simp] theorem State.writeWithFlag_v (x : Reg) (b : Byte) (f : Bool) : (s.writeWithFlag x b f).v = (s.v.set x b).set vF (flagByte f) := rfl
@[simp] theorem State.writeWithFlag_i (x : Reg) (b : Byte) (f : Bool) : (s.writeWithFlag x b f).i = s.i := rfl
@[simp] theorem State.writeWithFlag_pc (x : Reg) (b : Byte) (f : Bool) : (s.writeWithFlag x b f).pc = s.pc := rfl
@[simp] theorem State.writeWithFlag_sp (x : Reg) (b : Byte) (f : Bool) : (s.writeWithFlag x b f).sp = s.sp := rfl
@[simp] theorem State.writeWithFlag_stack (x : Reg) (b : Byte) (f : Bool) : (s.writeWithFlag x b f).stack = s.stack := rfl
@[simp] theorem State.writeWithFlag_dt (x : Reg) (b : Byte) (f : Bool) : (s.writeWithFlag x b f).dt = s.dt := rfl
@[simp] theorem State.writeWithFlag_st (x : Reg) (b : Byte) (f : Bool) : (s.writeWithFlag x b f).st = s.st := rfl
@[simp] theorem State.writeWithFlag_disp (x : Reg) (b : Byte) (f : Bool) : (s.writeWithFlag x b f).disp = s.disp := rfl
@[simp] theorem State.writeWithFlag_keys (x : Reg) (b : Byte) (f : Bool) : (s.writeWithFlag x b f).keys = s.keys := rfl
@[simp] theorem State.writeWithFlag_wait (x : Reg) (b : Byte) (f : Bool) : (s.writeWithFlag x b f).wait = s.wait := rfl
@[simp] theorem State.writeWithFlag_paused (x : Reg) (b : Byte) (f : Bool) : (s.writeWithFlag x b f).paused = s.paused := rfl
@[simp] theorem State.writeWithFlag_fault (x : Reg) (b : Byte) (f : Bool) : (s.writeWithFlag x b f).fault = s.fault := rfl
@[simp] theorem State.writeWithFlag_lag (x : Reg) (b : Byte) (f : Bool) : (s.writeWithFlag x b f).lag = s.lag := rfl
@[simp] theorem State.writeWithFlag_rngDraws (x : Reg) (b : Byte) (f : Bool) : (s.writeWithFlag x b f).rngDraws = s.rngDraws := rfl

/-! ### tickTimers -/

@[simp] theorem State.tickTimers_mem : s.tickTimers.mem = s.mem := rfl
@[simp] theorem State.tickTimers_v : s.tickTimers.v = s.v := rfl
@[simp] theorem State.tickTimers_i : s.tickTimers.i = s.i := rfl
@[simp] theorem State.tickTimers_pc : s.tickTimers.pc = s.pc := rfl
@[simp] theorem State.tickTimers_sp : s.tickTimers.sp = s.sp := rfl
@[simp] theorem State.tickTimers_stack : s.tickTimers.stack = s.stack := rfl
@[simp] theorem State.tickTimers_dt : s.tickTimers.dt = countDown s.dt := rfl
@[simp] theorem State.tickTimers_st : s.tickTimers.st = countDown s.st := rfl
@[simp] theorem State.tickTimers_disp : s.tickTimers.disp = s.disp := rfl
@[simp] theorem State.tickTimers_keys : s.tickTimers.keys = s.keys := rfl
@[simp] theorem State.tickTimers_wait : s.tickTimers.wait = s.wait := rfl
@[simp] theorem State.tickTimers_paused : s.tickTimers.paused = s.paused := rfl
@[simp] theorem State.tickTimers_fault : s.tickTimers.fault = s.fault := rfl
@[simp] theorem State.tickTimers_lag : s.tickTimers.lag = s.lag := rfl
@[simp] theorem State.tickTimers_rngDraws : s.tickTimers.rngDraws = s.rngDraws := rfl

/-! ### pauseToggle -/

@[simp] theorem State.pauseToggle_mem : s.pauseToggle.mem = s.mem := rfl
@[simp] theorem State.pauseToggle_v : s.pauseToggle.v = s.v := rfl
@[simp] theorem State.pauseToggle_i : s.pauseToggle.i = s.i := rfl
@[simp] theorem State.pauseToggle_pc : s.pauseToggle.pc = s.pc := rfl
@[simp] theorem State.pauseToggle_sp : s.pauseToggle.sp = s.sp := rfl
@[simp] theorem State.pauseToggle_stack : s.pauseToggle.stack = s.stack := rfl
@[simp] theorem State.pauseToggle_dt : s.pauseToggle.dt = s.dt := rfl
@[simp] theorem State.pauseToggle_st : s.pauseToggle.st = s.st := rfl
@[simp] theorem State.pauseToggle_disp : s.pauseToggle.disp = s.disp := rfl
@[simp] theorem State.pauseToggle_keys : s.pauseToggle.keys = s.keys := rfl
@[simp] theorem State.pauseToggle_wait : s.pauseToggle.wait = s.wait := rfl
@[simp] theorem State.pauseToggle_paused : s.pauseToggle.paused = !s.paused := rfl
@[simp] theorem State.pauseToggle_fault : s.pauseToggle.fault = s.fault := rfl
@[simp] theorem State.pauseToggle_lag : s.pauseToggle.lag = s.lag := rfl
@[simp] theorem State.pauseToggle_rngDraws : s.pauseToggle.rngDraws = s.rngDraws := rfl

/-! ### setKey -/

@[simp] theorem State.setKey_mem (k : Key) (b : Bool) : (s.setKey k b).mem = s.mem := rfl
@[simp] theorem State.setKey_v (k : Key) (b : Bool) : (s.setKey k b).v = s.v := rfl
@[simp] theorem State.setKey_i (k : Key) (b : Bool) : (s.setKey k b).i = s.i := rfl
@[simp] theorem State.setKey_pc (k : Key) (b : Bool) : (s.setKey k b).pc = s.pc := rfl
@[simp] theorem State.setKey_sp (k : Key) (b : Bool) : (s.setKey k b).sp = s.sp := rfl
@[simp] theorem State.setKey_stack (k : Key) (b : Bool) : (s.setKey k b).stack = s.stack := rfl
@[simp] theorem State.setKey_dt (k : Key) (b : Bool) : (s.setKey k b).dt = s.dt := rfl
@[simp] theorem State.setKey_st (k : Key) (b : Bool) : (s.setKey k b).st = s.st := rfl
@[simp] theorem State.setKey_disp (k : Key) (b : Bool) : (s.setKey k b).disp = s.disp := rfl
@[simp] theorem State.setKey_keys (k : Key) (b : Bool) : (s.setKey k b).keys = s.keys.set k b := rfl
@[simp] theorem State.setKey_wait (k : Key) (b : Bool) : (s.setKey k b).wait = s.wait := rfl
@[simp] theorem State.setKey_paused (k : Key) (b : Bool) : (s.setKey k b).paused = s.paused := rfl
@[simp] theorem State.setKey_fault (k : Key) (b : Bool) : (s.setKey k b).fault = s.fault := rfl
@[simp] theorem State.setKey_lag (k : Key) (b : Bool) : (s.setKey k b).lag = s.lag := rfl
@[simp] theorem State.setKey_rngDraws (k : Key) (b : Bool) : (s.setKey k b).rngDraws = s.rngDraws := rfl

/-! ### keyUp -/

@[simp] theorem State.keyUp_mem (k : Key) : (s.keyUp k).mem = s.mem := rfl
@[simp] theorem State.keyUp_v (k : Key) : (s.keyUp k).v = s.v := rfl
@[simp] theorem State.keyUp_i (k : Key) : (s.keyUp k).i = s.i := rfl
@[simp] theorem State.keyUp_pc (k : Key) : (s.keyUp k).pc = s.pc := rfl
@[simp] theorem State.keyUp_sp (k : Key) : (s.keyUp k).sp = s.sp := rfl
@[simp] theorem State.keyUp_stack (k : Key) : (s.keyUp k).stack = s.stack := rfl
@[simp] theorem State.keyUp_dt (k : Key) : (s.keyUp k).dt = s.dt := rfl
@[simp] theorem State.keyUp_st (k : Key) : (s.keyUp k).st = s.st := rfl
@[simp] theorem State.keyUp_disp (k : Key) : (s.keyUp k).disp = s.disp := rfl
@[simp] theorem State.keyUp_keys (k : Key) : (s.keyUp k).keys = s.keys.set k false := rfl
@[simp] theorem State.keyUp_wait (k : Key) : (s.keyUp k).wait = s.wait := rfl
@[simp] theorem State.keyUp_paused (k : Key) : (s.keyUp k).paused = s.paused := rfl
@[simp] theorem State.keyUp_fault (k : Key) : (s.keyUp k).fault = s.fault := rfl
@[simp] theorem State.keyUp_lag (k : Key) : (s.keyUp k).lag = s.lag := rfl
@[simp] theorem State.keyUp_rngDraws (k : Key) : (s.keyUp k).rngDraws = s.rngDraws := rfl

/-! ### skipIf: every field but pc -/

@[simp] theorem State.skipIf_pc (c : Bool) : (s.skipIf c).pc = if c then s.pc + 4 else s.pc + 2 := by
  cases c <;> rfl
@[simp] theorem State.skipIf_mem (c : Bool) : (s.skipIf c).mem = s.mem := by cases c <;> rfl
@[simp] theorem State.skipIf_v (c : Bool) : (s.skipIf c).v = s.v := by cases c <;> rfl
@[simp] theorem State.skipIf_i (c : Bool) : (s.skipIf c).i = s.i := by cases c <;> rfl
@[simp] theorem State.skipIf_sp (c : Bool) : (s.skipIf c).sp = s.sp := by cases c <;> rfl
@[simp] theorem State.skipIf_stack (c : Bool) : (s.skipIf c).stack = s.stack := by cases c <;> rfl
@[simp] theorem State.skipIf_dt (c : Bool) : (s.skipIf c).dt = s.dt := by cases c <;> rfl
@[simp] theorem State.skipIf_st (c : Bool) : (s.skipIf c).st = s.st := by cases c <;> rfl
@[simp] theorem State.skipIf_disp (c : Bool) : (s.skipIf c).disp = s.disp := by cases c <;> rfl
@[simp] theorem State.skipIf_keys (c : Bool) : (s.skipIf c).keys = s.keys := by cases c <;> rfl
@[simp] theorem State.skipIf_wait (c : Bool) : (s.skipIf c).wait = s.wait := by cases c <;> rfl
@[simp] theorem State.skipIf_paused (c : Bool) : (s.skipIf c).paused = s.paused := by cases c <;> rfl
@[simp] theorem State.skipIf_fault (c : Bool) : (s.skipIf c).fault = s.fault := by cases c <;> rfl
@[simp] theorem State.skipIf_lag (c : Bool) : (s.skipIf c).lag = s.lag := by cases c <;> rfl
@[simp] theorem State.skipIf_rngDraws (c : Bool) : (s.skipIf c).rngDraws = s.rngDraws := by cases c <;> rfl

/-! ### frameTick: every field but the timers -/

@[simp] theorem State.frameTick_mem (c : Config) : (s.frameTick c).mem = s.mem := by
  unfold State.frameTick; split <;> rfl
@[simp] theorem State.frameTick_v (c : Config) : (s.frameTick c).v = s.v := by
  unfold State.frameTick; split <;> rfl
@[simp] theorem State.frameTick_i (c : Config) : (s.frameTick c).i = s.i := by
  unfold State.frameTick; split <;> rfl
@[simp] theorem State.frameTick_pc (c : Config) : (s.frameTick c).pc = s.pc := by
  unfold State.frameTick; split <;> rfl
@[simp] theorem State.frameTick_sp (c : Config) : (s.frameTick c).sp = s.sp := by
  unfold State.frameTick; split <;> rfl
@[simp] theorem State.frameTick_stack (c : Config) : (s.frameTick c).stack = s.stack := by
  unfold State.frameTick; split <;> rfl
@[simp] theorem State.frameTick_disp (c : Config) : (s.frameTick c).disp = s.disp := by
  unfold State.frameTick; split <;> rfl
@[simp] theorem State.frameTick_keys (c : Config) : (s.frameTick c).keys = s.keys := by
  unfold State.frameTick; split <;> rfl
@[simp] theorem State.frameTick_wait (c : Config) : (s.frameTick c).wait = s.wait := by
  unfold State.frameTick; split <;> rfl
@[simp] theorem State.frameTick_paused (c : Config) : (s.frameTick c).paused = s.paused := by
  unfold State.frameTick; split <;> rfl
@[simp] theorem State.frameTick_fault (c : Config) : (s.frameTick c).fault = s.fault := by
  unfold State.frameTick; split <;> rfl
@[simp] theorem State.frameTick_lag (c : Config) : (s.frameTick c).lag = s.lag := by
  unfold State.frameTick; split <;> rfl
@[simp] theorem State.frameTick_rngDraws (c : Config) : (s.frameTick c).rngDraws = s.rngDraws := by
  unfold State.frameTick; split <;> rfl

/-! ### writeVs: every field but the registers -/

@[simp] theorem State.writeVs_mem (k : Nat) (bs : List Byte) : (s.writeVs k bs).mem = s.mem := by
  induction bs generalizing s k with
  | nil => rfl
  | cons b rest ih => rw [State.writeVs, ih, State.writeV_mem]
@[simp] theorem State.writeVs_i (k : Nat) (bs : List Byte) : (s.writeVs k bs).i = s.i := by
  induction bs generalizing s k with
  | nil => rfl
  | cons b rest ih => rw [State.writeVs, ih, State.writeV_i]
@[simp] theorem State.writeVs_pc (k : Nat) (bs : List Byte) : (s.writeVs k bs).pc = s.pc := by
  induction bs generalizing s k with
  | nil => rfl
  | cons b rest ih => rw [State.writeVs, ih, State.writeV_pc]
@[simp] theorem State.writeVs_sp (k : Nat) (bs : List Byte) : (s.writeVs k bs).sp = s.sp := by
  induction bs generalizing s k with
  | nil => rfl
  | cons b rest ih => rw [State.writeVs, ih, State.writeV_sp]
@[simp] theorem State.writeVs_stack (k : Nat) (bs : List Byte) : (s.writeVs k bs).stack = s.stack := by
  induction bs generalizing s k with
  | nil => rfl
  | cons b rest ih => rw [State.writeVs, ih, State.writeV_stack]
@[simp] theorem State.writeVs_dt (k : Nat) (bs : List Byte) : (s.writeVs k bs).dt = s.dt := by
  induction bs generalizing s k with
  | nil => rfl
  | cons b rest ih => rw [State.writeVs, ih, State.writeV_dt]
@[simp] theorem State.writeVs_st (k : Nat) (bs : List Byte) : (s.writeVs k bs).st = s.st := by
  induction bs generalizing s k with
  | nil => rfl
  | cons b rest ih => rw [State.writeVs, ih, State.writeV_st]
@[simp] theorem State.writeVs_disp (k : Nat) (bs : List Byte) : (s.writeVs k bs).disp = s.disp := by
  induction bs generalizing s k with
  | nil => rfl
  | cons b rest ih => rw [State.writeVs, ih, State.writeV_disp]
@[simp] theorem State.writeVs_keys (k : Nat) (bs : List Byte) : (s.writeVs k bs).keys = s.keys := by
  induction bs generalizing s k with
  | nil => rfl
  | cons b rest ih => rw [State.writeVs, ih, State.writeV_keys]
@[simp] theorem State.writeVs_wait (k : Nat) (bs : List Byte) : (s.writeVs k bs).wait = s.wait := by
  induction bs generalizing s k with
  | nil => rfl
  | cons b rest ih => rw [State.writeVs, ih, State.writeV_wait]
@[simp] theorem State.writeVs_paused (k : Nat) (bs : List Byte) : (s.writeVs k bs).paused = s.paused := by
  induction bs generalizing s k with
  | nil => rfl
  | cons b rest ih => rw [State.writeVs, ih, State.writeV_paused]
@[simp] theorem State.writeVs_fault (k : Nat) (bs : List Byte) : (s.writeVs k bs).fault = s.fault := by
  induction bs generalizing s k with
  | nil => rfl
  | cons b rest ih => rw [State.writeVs, ih, State.writeV_fault]
@[simp] theorem State.writeVs_lag (k : Nat) (bs : List Byte) : (s.writeVs k bs).lag = s.lag := by
  induction bs generalizing s k with
  | nil => rfl
  | cons b rest ih => rw [State.writeVs, ih, State.writeV_lag]
@[simp] theorem State.writeVs_rngDraws (k : Nat) (bs : List Byte) : (s.writeVs k bs).rngDraws = s.rngDraws := by
  induction bs generalizing s k with
  | nil => rfl
  | cons b rest ih => rw [State.writeVs, ih, State.writeV_rngDraws]

end Sys2Proof.Machine
end

