-- ==== Sys2Proof/Laws/Ops.lean ====
section
/-! SUPPORT. The laws of the shared operations: memory (a read after a write, the canonical form), registers, access
ranges, blocks. -/

namespace Sys2Proof.Machine

/-! ### Memory: a read after a write -/

theorem Memory.read_of_absent {m : Memory} {a : Nat} (h : ∀ p ∈ m, p.1 ≠ a) : m.read a = Memory.blank a := by
  induction m with
  | nil => rfl
  | cons p t ih =>
    rw [Memory.read, if_neg (h p List.mem_cons_self)]
    exact ih fun q hq => h q (List.mem_cons_of_mem _ hq)

theorem Memory.absent_erase (m : Memory) (a : Nat) : ∀ p ∈ m.erase a, p.1 ≠ a := by
  intro p hp
  simpa using (List.mem_filter.mp hp).2

theorem Memory.read_erase_of_ne (m : Memory) {a c : Nat} (h : c ≠ a) : (m.erase a).read c = m.read c := by
  induction m with
  | nil => rfl
  | cons p t ih =>
    unfold Memory.erase at ih ⊢
    by_cases hp : p.1 = a
    · have hc : ¬ a = c := fun e => h e.symm
      simp [hp, Memory.read, ih, hc]
    · simp [hp, Memory.read, ih]

theorem Memory.read_insertCell {m : Memory} {a : Nat} (h : ∀ p ∈ m, p.1 ≠ a) (b : Byte) (c : Nat) :
    (m.insertCell a b).read c = if c = a then b else m.read c := by
  induction m with
  | nil =>
    by_cases hc : c = a
    · simp [Memory.insertCell, Memory.read, hc]
    · have hc' : ¬ a = c := fun e => hc e.symm
      simp [Memory.insertCell, Memory.read, hc, hc']
  | cons p t ih =>
    have ht := ih fun q hq => h q (List.mem_cons_of_mem _ hq)
    have hp : p.1 ≠ a := h p List.mem_cons_self
    unfold Memory.insertCell
    split
    · by_cases hc : c = a
      · simp [Memory.read, hc]
      · have hc' : ¬ a = c := fun e => hc e.symm
        simp [Memory.read, hc, hc']
    · rw [Memory.read, ht, Memory.read]
      by_cases hc : c = a
      · subst hc; simp [hp]
      · simp [hc]

/-- A read after a write: the byte written at its own address, every other byte as before. -/
@[simp] theorem Memory.read_write (m : Memory) (a : Nat) (b : Byte) (c : Nat) :
    (m.write a b).read c = if c = a then b else m.read c := by
  unfold Memory.write
  split
  next hb =>
    by_cases hc : c = a
    · rw [if_pos hc, hc, Memory.read_of_absent (m.absent_erase a), hb]
    · rw [if_neg hc, m.read_erase_of_ne hc]
  next =>
    rw [Memory.read_insertCell (m.absent_erase a)]
    by_cases hc : c = a
    · simp [hc]
    · simp [hc, m.read_erase_of_ne hc]

/-- A byte of a memory after a block is written: the block's byte, or what it was outside the block. -/
theorem Memory.read_writeBlock (m : Memory) (base : Nat) (bs : List Byte) (c : Nat) :
    (m.writeBlock base bs).read c =
      if base ≤ c ∧ c < base + bs.length then bs.getD (c - base) 0 else m.read c := by
  induction bs generalizing m base with
  | nil => simp [Memory.writeBlock]
  | cons b rest ih =>
    rw [Memory.writeBlock, ih, Memory.read_write]
    rcases Nat.lt_trichotomy c base with h | h | h
    · rw [if_neg (by omega), if_neg (by omega), if_neg (by simp; omega)]
    · subst h; simp
    · have hs : c - base = (c - (base + 1)) + 1 := by omega
      by_cases hi : c < base + 1 + rest.length
      · rw [if_pos ⟨by omega, hi⟩, if_pos ⟨by omega, by simp; omega⟩, hs, List.getD_cons_succ]
      · rw [if_neg (by omega), if_neg (by omega), if_neg (by simp; omega)]

/-! ### Memory: the canonical form -/

theorem Memory.wf_nil : Memory.wf [] := ⟨List.Pairwise.nil, by simp⟩

theorem Memory.wf_erase {m : Memory} (h : m.wf) (a : Nat) : (m.erase a).wf :=
  ⟨h.1.filter _, fun p hp => h.2 p (List.mem_filter.mp hp).1⟩

theorem Memory.mem_insertCell {m : Memory} {a : Nat} {b : Byte} {p : Host.Cell}
    (hp : p ∈ m.insertCell a b) : p = (a, b) ∨ p ∈ m := by
  induction m with
  | nil => exact .inl (by simpa [Memory.insertCell] using hp)
  | cons q t ih =>
    unfold Memory.insertCell at hp
    split at hp
    · simpa using hp
    · rcases List.mem_cons.mp hp with rfl | hp
      · exact .inr List.mem_cons_self
      · exact (ih hp).imp_right (List.mem_cons_of_mem _)

theorem Memory.wf_insertCell {m : Memory} (h : m.wf) {a : Nat} {b : Byte} (ha : a < memSize)
    (hb : b ≠ Memory.blank a) (habs : ∀ p ∈ m, p.1 ≠ a) : (m.insertCell a b).wf := by
  refine ⟨?_, fun p hp => ?_⟩
  · have hs := h.1
    clear h
    induction m with
    | nil => exact List.pairwise_singleton _ _
    | cons q t ih =>
      have hq := List.pairwise_cons.mp hs
      unfold Memory.insertCell
      split
      next hlt =>
        refine List.pairwise_cons.mpr ⟨fun p hp => ?_, hs⟩
        rcases List.mem_cons.mp hp with rfl | hp
        · exact hlt
        · exact Nat.lt_trans hlt (hq.1 p hp)
      next hge =>
        have hne : q.1 ≠ a := habs q List.mem_cons_self
        refine List.pairwise_cons.mpr
          ⟨fun p hp => ?_, ih (fun p hp => habs p (List.mem_cons_of_mem _ hp)) hq.2⟩
        rcases Memory.mem_insertCell hp with rfl | hp
        · change q.1 < a
          have : ¬ a < q.1 := hge
          omega
        · exact hq.1 p hp
  · rcases Memory.mem_insertCell hp with rfl | hp
    · exact ⟨ha, hb⟩
    · exact h.2 p hp

/-- A write inside the address space keeps the canonical form. -/
theorem Memory.wf_write {m : Memory} (h : m.wf) {a : Nat} (ha : a < memSize) (b : Byte) : (m.write a b).wf := by
  unfold Memory.write
  split
  · exact Memory.wf_erase h a
  next hb => exact Memory.wf_insertCell (Memory.wf_erase h a) ha hb (m.absent_erase a)

/-- A block written inside the address space keeps the canonical form. -/
theorem Memory.wf_writeBlock {m : Memory} (h : m.wf) {base : Nat} {bs : List Byte}
    (hb : base + bs.length ≤ memSize) : (m.writeBlock base bs).wf := by
  induction bs generalizing m base with
  | nil => exact h
  | cons b rest ih =>
    simp only [List.length_cons] at hb
    exact ih (Memory.wf_write h (by omega) b) (by omega)

/-- The canonical form is canonical: memories that read the same everywhere are the same list. -/
theorem Memory.eq_of_read_eq {m n : Memory} (hm : m.wf) (hn : n.wf) (h : ∀ a, m.read a = n.read a) : m = n := by
  have key : ∀ {m : Memory}, m.wf → ∀ p ∈ m, m.read p.1 = p.2 := by
    intro m hm p hp
    induction m with
    | nil => cases hp
    | cons q t ih =>
      have hq := List.pairwise_cons.mp hm.1
      rcases List.mem_cons.mp hp with rfl | hp
      · simp [Memory.read]
      · have hne : q.1 ≠ p.1 := Nat.ne_of_lt (hq.1 p hp)
        rw [Memory.read, if_neg hne]
        exact ih ⟨hq.2, fun r hr => hm.2 r (List.mem_cons_of_mem _ hr)⟩ hp
  have sub : ∀ {m n : Memory}, m.wf → n.wf → (∀ a, m.read a = n.read a) → ∀ p ∈ m, p ∈ n := by
    intro m n hm hn h p hp
    have hv : n.read p.1 = p.2 := (h p.1).symm.trans (key hm p hp)
    by_contra hc
    by_cases hex : ∃ q ∈ n, q.1 = p.1
    · obtain ⟨q, hq, hqp⟩ := hex
      have : q.2 = p.2 := by rw [← key hn q hq, hqp, hv]
      exact hc (Prod.ext hqp this ▸ hq)
    · have := Memory.read_of_absent (m := n) (a := p.1) fun q hq e => hex ⟨q, hq, e⟩
      exact (hm.2 p hp).2 (hv.symm.trans this)
  have hset : ∀ p, p ∈ m ↔ p ∈ n := fun p => ⟨sub hm hn h p, sub hn hm (fun a => (h a).symm) p⟩
  have nd : ∀ {m : Memory}, m.wf → m.Nodup := fun {m} hm =>
    hm.1.imp fun {p q} hlt (e : p = q) => absurd hlt (by rw [e]; exact Nat.lt_irrefl _)
  have hperm : m.Perm n := (List.perm_ext_iff_of_nodup (nd hm) (nd hn)).mpr hset
  exact hperm.eq_of_pairwise (fun p q _ _ hpq hqp => absurd hpq (Nat.lt_asymm hqp)) hm.1 hn.1

/-! ### Access ranges -/

theorem accessInRange_iff {base n : Nat} : accessInRange base n = true ↔ n = 0 ∨ base + n ≤ memSize := by
  simp [accessInRange]

/-- Every address of the set is inside the space exactly when the range check passes (20_memory.md R52). -/
theorem accessInRange_iff_forall {base n : Nat} :
    accessInRange base n = true ↔ ∀ k, k < n → base + k < memSize := by
  rw [accessInRange_iff]
  constructor
  · rintro (h | h) k hk <;> omega
  · intro h
    rcases Nat.eq_zero_or_pos n with h0 | hpos
    · exact .inl h0
    · have := h (n - 1) (by omega)
      exact .inr (by omega)

theorem State.loadBytes_cases (s : State) (base n : Nat) :
    (accessInRange base n = true ∧ s.loadBytes base n = some (s.mem.readBlock base n)) ∨
      (accessInRange base n = false ∧ s.loadBytes base n = none) := by
  unfold State.loadBytes
  cases h : accessInRange base n <;> simp

theorem State.storeBytes_cases (s : State) (base : Nat) (bs : List Byte) :
    (accessInRange base bs.length = true ∧
        s.storeBytes base bs = some { s with mem := s.mem.writeBlock base bs }) ∨
      (accessInRange base bs.length = false ∧ s.storeBytes base bs = none) := by
  unfold State.storeBytes
  cases h : accessInRange base bs.length <;> simp

@[simp] theorem Memory.readBlock_length (m : Memory) (base n : Nat) : (m.readBlock base n).length = n := by
  simp [Memory.readBlock]

theorem Memory.readBlock_getD (m : Memory) (base n : Nat) {k : Nat} (h : k < n) :
    (m.readBlock base n).getD k 0 = m.read (base + k) := by
  simp [Memory.readBlock, List.getD_eq_getElem?_getD, h]

/-! ### Registers -/

theorem fin16_val_of_lt {n : Nat} (h : n < 16) : (fin16 n).val = n := Nat.mod_eq_of_lt h

@[simp] theorem fin16_val (x : Fin 16) : fin16 x.val = x := Fin.ext (Nat.mod_eq_of_lt x.isLt)

@[simp] theorem State.readV_writeV (s : State) (x y : Reg) (b : Byte) :
    (s.writeV x b).readV y = if y = x then b else s.readV y := by
  unfold State.readV
  simp only [State.writeV_v, Fin.getElem_fin, Vector.getElem_set, Fin.val_inj]
  simp only [eq_comm (a := x)]

/-- Reading a register depends on the register file only. -/
theorem State.readV_congr {s t : State} (h : s.v = t.v) (x : Reg) : s.readV x = t.readV x := by
  unfold State.readV
  rw [h]

@[simp] theorem State.readV_fallThrough (s : State) (x : Reg) : s.fallThrough.readV x = s.readV x := rfl

@[simp] theorem State.readV_jumpTo (s : State) (a : Word) (x : Reg) : (s.jumpTo a).readV x = s.readV x := rfl

@[simp] theorem State.readV_raise (s : State) (k : FaultKind) (op : Option Word) (x : Reg) :
    (s.raise k op).readV x = s.readV x := rfl

/-- The register a block load leaves: the block's byte, or what it was outside the block. -/
theorem State.readV_writeVs (s : State) (k : Nat) (bs : List Byte) (h : k + bs.length ≤ 16) (r : Reg) :
    (s.writeVs k bs).readV r =
      if k ≤ r.val ∧ r.val < k + bs.length then bs.getD (r.val - k) 0 else s.readV r := by
  induction bs generalizing s k with
  | nil => simp [State.writeVs]
  | cons b rest ih =>
    simp only [List.length_cons] at h
    have hr := r.isLt
    have hk : (fin16 k).val = k := Nat.mod_eq_of_lt (by omega)
    rw [State.writeVs, ih _ _ (by omega), State.readV_writeV, List.length_cons]
    simp only [Fin.ext_iff, hk]
    rcases Nat.lt_trichotomy r.val k with h1 | h1 | h1
    · rw [if_neg (by omega), if_neg (by omega), if_neg (by omega)]
    · rw [if_neg (by omega), if_pos h1, if_pos (by omega)]
      simp [h1]
    · have hs : r.val - k = (r.val - (k + 1)) + 1 := by omega
      by_cases hi : r.val < k + 1 + rest.length
      · rw [if_pos ⟨by omega, hi⟩, if_pos (by omega), hs, List.getD_cons_succ]
      · rw [if_neg (by omega), if_neg (by omega), if_neg (by omega)]

@[simp] theorem State.readVs_length (s : State) (x : Reg) : (s.readVs x).length = x.val + 1 := by
  simp [State.readVs, blockLength]

theorem State.readVs_getD (s : State) (x : Reg) {k : Nat} (h : k ≤ x.val) :
    (s.readVs x).getD k 0 = s.readV (fin16 k) := by
  have : k < x.val + 1 := by omega
  simp [State.readVs, blockLength, List.getD_eq_getElem?_getD, this]

/-! ### The stack -/

/-- The entry a push writes, and every other one as before. -/
theorem State.stackEntry_push (s : State) (a : Word) (j : Fin 16) :
    (s.push a).stackEntry j = if j = fin16 s.sp.toNat then a else s.stackEntry j := by
  unfold State.stackEntry
  simp only [State.push_stack, Fin.getElem_fin, Vector.getElem_set, Fin.val_inj]
  simp only [eq_comm (a := j)]

end Sys2Proof.Machine
end

