-- ==== Sys2Proof/Laws/Draw.lean ====
section
/-! SUPPORT. The laws of the draw engine: one cell, one toggle, and a whole sprite as the list of the cells under its
1 bits, which are distinct (43_display.md R183). -/

namespace Sys2Proof.Machine

/-! ### One cell -/

@[simp] theorem Display.lit_put (d : Display) (x x' : Fin 64) (y y' : Fin 32) (b : Bool) :
    (d.put x y b).lit x' y' = if x' = x ∧ y' = y then b else d.lit x' y' := by
  simp only [Display.lit, Display.put, Fin.getElem_fin, Vector.getElem_set, Fin.val_inj]
  by_cases hy : y = y'
  · subst hy
    simp only [if_true, Vector.getElem_set, Fin.val_inj, and_true, eq_comm (a := x)]
  · have hy' : ¬ y' = y := fun e => hy e.symm
    simp [hy, hy']

@[simp] theorem Display.lit_clear (x : Fin 64) (y : Fin 32) : Display.clear.lit x y = false := by
  simp [Display.lit, Display.clear]

/-! ### A list of cells, toggled one after another -/

/-- Toggle one cell and note a collision. -/
def toggleCell (p : Display × Bool) (c : Fin 64 × Fin 32) : Display × Bool :=
  (p.1.put c.1 c.2 (!p.1.lit c.1 c.2), p.2 || p.1.lit c.1 c.2)

theorem lit_toggleCell (p : Display × Bool) (c : Fin 64 × Fin 32) (x : Fin 64) (y : Fin 32) :
    (toggleCell p c).1.lit x y = (p.1.lit x y ^^ decide ((x, y) = c)) := by
  obtain ⟨cx, cy⟩ := c
  simp only [toggleCell, Display.lit_put, Prod.mk.injEq]
  by_cases h : x = cx ∧ y = cy
  · simp [h.1, h.2]
  · simp [h]

/-- Distinct cells toggled: each is inverted, no other changes. -/
theorem lit_toggleCells (cells : List (Fin 64 × Fin 32)) (hn : cells.Nodup) (p : Display × Bool)
    (x : Fin 64) (y : Fin 32) :
    (cells.foldl toggleCell p).1.lit x y = (p.1.lit x y ^^ decide ((x, y) ∈ cells)) := by
  induction cells generalizing p with
  | nil => simp
  | cons c rest ih =>
    have hc := List.nodup_cons.mp hn
    rw [List.foldl_cons, ih hc.2, lit_toggleCell]
    by_cases h : (x, y) = c
    · have : (x, y) ∉ rest := h ▸ hc.1
      simp [h, hc.1]
    · simp [h]

/-- Distinct cells toggled: a collision is noted exactly when one of them was lit before. -/
theorem collided_toggleCells (cells : List (Fin 64 × Fin 32)) (hn : cells.Nodup) (p : Display × Bool) :
    (cells.foldl toggleCell p).2 = (p.2 || cells.any fun c => p.1.lit c.1 c.2) := by
  induction cells generalizing p with
  | nil => simp
  | cons c rest ih =>
    have hc := List.nodup_cons.mp hn
    rw [List.foldl_cons, ih hc.2, List.any_cons]
    have hsame : (rest.any fun e => (toggleCell p c).1.lit e.1 e.2) = rest.any fun e => p.1.lit e.1 e.2 := by
      have hlit : ∀ e ∈ rest, (toggleCell p c).1.lit e.1 e.2 = p.1.lit e.1 e.2 := fun e he => by
        have hne : ¬ e = c := fun h => hc.1 (h ▸ he)
        simp [lit_toggleCell, hne]
      rw [Bool.eq_iff_iff, List.any_eq_true, List.any_eq_true]
      exact ⟨fun ⟨e, he, h⟩ => ⟨e, he, hlit e he ▸ h⟩, fun ⟨e, he, h⟩ => ⟨e, he, (hlit e he).symm ▸ h⟩⟩
    rw [hsame]
    simp [toggleCell, Bool.or_assoc]

/-! ### The cells of a sprite -/

/-- The cells under the 1 bits of one row, left to right. -/
def rowCells (ox cy : Nat) (b : Byte) : List (Fin 64 × Fin 32) :=
  ((List.range 8).filter fun col => b.getLsbD (7 - col)).map fun col => (columnOf (ox + col), rowOf cy)

/-- The cells under the 1 bits of a sprite, row by row. -/
def spriteCells (ox oy : Nat) (rows : List Byte) : List (Fin 64 × Fin 32) :=
  match rows with
  | [] => []
  | b :: rest => rowCells ox oy b ++ spriteCells ox (oy + 1) rest

theorem drawColumn_eq (ox cy : Nat) (b : Byte) (p : Display × Bool) (col : Nat) :
    drawColumn ox cy b p col =
      if b.getLsbD (7 - col) then toggleCell p (columnOf (ox + col), rowOf cy) else p := rfl

/-- Drawing a row toggles its cells. -/
theorem drawRow_eq (ox cy : Nat) (b : Byte) (p : Display × Bool) :
    drawRow ox cy b p = (rowCells ox cy b).foldl toggleCell p := by
  rw [drawRow, rowCells, List.foldl_map, List.foldl_filter]
  rfl

/-- Drawing a sprite toggles its cells. -/
theorem drawRows_eq (ox oy : Nat) (rows : List Byte) (p : Display × Bool) :
    drawRows ox oy rows p = (spriteCells ox oy rows).foldl toggleCell p := by
  induction rows generalizing oy p with
  | nil => rfl
  | cons b rest ih => rw [drawRows, ih, drawRow_eq, spriteCells, List.foldl_append]

/-- Which cells a sprite has: row r, column c of a 1 bit, mod 64 and mod 32 (43_display.md R182). -/
theorem mem_spriteCells (ox oy : Nat) (rows : List Byte) (cell : Fin 64 × Fin 32) :
    cell ∈ spriteCells ox oy rows ↔
      ∃ r c, r < rows.length ∧ c < 8 ∧ (rows.getD r 0).getLsbD (7 - c) = true ∧
        cell = (columnOf (ox + c), rowOf (oy + r)) := by
  induction rows generalizing oy with
  | nil => simp [spriteCells]
  | cons b rest ih =>
    rw [spriteCells, List.mem_append, ih, rowCells, List.mem_map]
    constructor
    · rintro (⟨c, hc, rfl⟩ | ⟨r, c, hr, hc, hb, rfl⟩)
      · obtain ⟨hc8, hb⟩ := List.mem_filter.mp hc
        exact ⟨0, c, by simp, List.mem_range.mp hc8, by simpa using hb, rfl⟩
      · refine ⟨r + 1, c, by simpa using hr, hc, by simpa using hb, ?_⟩
        rw [show oy + (r + 1) = oy + 1 + r by omega]
    · rintro ⟨r, c, hr, hc, hb, rfl⟩
      cases r with
      | zero => exact .inl ⟨c, List.mem_filter.mpr ⟨List.mem_range.mpr hc, by simpa using hb⟩, rfl⟩
      | succ r =>
        refine .inr ⟨r, c, by simpa using hr, hc, by simpa using hb, ?_⟩
        rw [show oy + 1 + r = oy + (r + 1) by omega]

/-- A sprite does not overlap itself (43_display.md R183): 8 columns are distinct mod 64. -/
theorem nodup_rowCells (ox cy : Nat) (b : Byte) : (rowCells ox cy b).Nodup := by
  refine List.Nodup.map_on ?_ (List.nodup_range.filter _)
  intro c hc d hd h
  have hc8 := List.mem_range.mp (List.mem_filter.mp hc).1
  have hd8 := List.mem_range.mp (List.mem_filter.mp hd).1
  have := congrArg (fun e => e.1.val) h
  simp only [columnOf] at this
  omega

/-- A sprite of at most 32 rows does not overlap itself (43_display.md R183). -/
theorem nodup_spriteCells (ox oy : Nat) (rows : List Byte) (h : rows.length ≤ 32) :
    (spriteCells ox oy rows).Nodup := by
  induction rows generalizing oy with
  | nil => exact List.nodup_nil
  | cons b rest ih =>
    simp only [List.length_cons] at h
    refine List.nodup_append.mpr ⟨nodup_rowCells ox oy b, ih _ (by omega), ?_⟩
    rintro cell hcell cell' hcell' rfl
    obtain ⟨c, -, rfl⟩ := List.mem_map.mp hcell
    obtain ⟨r, d, hr, -, -, he⟩ := (mem_spriteCells _ _ _ _).mp hcell'
    have := congrArg (fun e => e.2.val) he
    simp only [rowOf] at this
    omega

/-- What a sprite of at most 32 rows does to a cell: inverted when it lies under a 1 bit, else as before. -/
theorem lit_drawRows (ox oy : Nat) (rows : List Byte) (h : rows.length ≤ 32) (p : Display × Bool)
    (x : Fin 64) (y : Fin 32) :
    (drawRows ox oy rows p).1.lit x y = (p.1.lit x y ^^ decide ((x, y) ∈ spriteCells ox oy rows)) := by
  rw [drawRows_eq, lit_toggleCells _ (nodup_spriteCells ox oy rows h)]

/-- When a sprite of at most 32 rows collides: a cell under a 1 bit was lit before it was drawn. -/
theorem collided_drawRows (ox oy : Nat) (rows : List Byte) (h : rows.length ≤ 32) (p : Display × Bool) :
    (drawRows ox oy rows p).2 = (p.2 || (spriteCells ox oy rows).any fun c => p.1.lit c.1 c.2) := by
  rw [drawRows_eq, collided_toggleCells _ (nodup_spriteCells ox oy rows h)]

end Sys2Proof.Machine
end

