-- ==== Sys2Proof/Laws/Exec.lean ====
section
/-! SUPPORT. What each meaning with a check can answer, said once: the case that runs and the case that records a
fault. The other meanings are one update and need no such lemma. And the small laws of fetch, idle and step. -/

namespace Sys2Proof.Machine

/-! ### Meanings with a check -/

theorem execCall_cases (nnn : Addr12) (s : State) :
    (s.sp.toNat > 16 ∧ execCall nnn s = .fault .stackPointerOutOfRange) ∨
    (s.sp.toNat = 16 ∧ execCall nnn s = .next (s.raise .stackOverflow (some (encode (.call nnn))))) ∨
    (s.sp.toNat < 16 ∧ execCall nnn s = .next ((s.push (s.pc + 2)).jumpTo (zextAddr nnn))) := by
  unfold execCall
  split
  · exact .inl ⟨by assumption, rfl⟩
  · split
    · exact .inr (.inl ⟨by assumption, rfl⟩)
    · exact .inr (.inr ⟨by simp only [stackDepth] at *; omega, rfl⟩)

theorem execRet_cases (s : State) :
    (s.sp.toNat > 16 ∧ execRet s = .fault .stackPointerOutOfRange) ∨
    (s.sp.toNat = 0 ∧ execRet s = .next (s.raise .stackUnderflow (some (encode .ret)))) ∨
    (0 < s.sp.toNat ∧ s.sp.toNat ≤ 16 ∧ execRet s = .next (s.pop.jumpTo s.stackTop)) := by
  unfold execRet
  split
  · exact .inl ⟨by assumption, rfl⟩
  · split
    · exact .inr (.inl ⟨by assumption, rfl⟩)
    · exact .inr (.inr ⟨by omega, by simp only [stackDepth] at *; omega, rfl⟩)

theorem State.storeAtI_cases (s : State) (ins : Instr) (bs : List Byte) :
    (accessInRange s.memBase bs.length = true ∧
      s.storeAtI ins bs = .next { s with mem := s.mem.writeBlock s.memBase bs, pc := s.pc + 2 }) ∨
    (accessInRange s.memBase bs.length = false ∧
      s.storeAtI ins bs = .next (s.raise .memoryOutOfRange (some (encode ins)))) := by
  unfold State.storeAtI
  rcases s.storeBytes_cases s.memBase bs with ⟨h, e⟩ | ⟨h, e⟩
  · exact .inl ⟨h, by rw [e]; rfl⟩
  · exact .inr ⟨h, by rw [e]; rfl⟩

theorem execLdVxMem_cases (x : Reg) (s : State) :
    (accessInRange s.memBase (x.val + 1) = true ∧
      execLdVxMem x s = .next (s.writeVs 0 (s.mem.readBlock s.memBase (x.val + 1))).fallThrough) ∨
    (accessInRange s.memBase (x.val + 1) = false ∧
      execLdVxMem x s = .next (s.raise .memoryOutOfRange (some (encode (.ldVxMem x))))) := by
  unfold execLdVxMem blockLength
  rcases s.loadBytes_cases s.memBase (x.val + 1) with ⟨h, e⟩ | ⟨h, e⟩
  · exact .inl ⟨h, by rw [e]⟩
  · exact .inr ⟨h, by rw [e]; rfl⟩

/-- The display and the collision of a Dxyn that is in range. -/
def State.drawn (s : State) (x y : Reg) (n : Nibble) : Display × Bool :=
  drawRows (s.readV x).toNat (s.readV y).toNat (s.mem.readBlock s.memBase n.toNat) (s.disp, false)

theorem execDrw_cases (x y : Reg) (n : Nibble) (s : State) :
    (accessInRange s.memBase n.toNat = true ∧
      execDrw x y n s =
        .next ({ s with disp := (s.drawn x y n).1 }.writeV vF (flagByte (s.drawn x y n).2)).fallThrough) ∨
    (accessInRange s.memBase n.toNat = false ∧
      execDrw x y n s = .next (s.raise .memoryOutOfRange (some (encode (.drw x y n))))) := by
  unfold execDrw
  rcases s.loadBytes_cases s.memBase n.toNat with ⟨h, e⟩ | ⟨h, e⟩
  · exact .inl ⟨h, by rw [e]; rfl⟩
  · exact .inr ⟨h, by rw [e]; rfl⟩

theorem keyOfByte_cases (b : Byte) :
    (b.toNat ≤ 15 ∧ keyOfByte b = some (fin16 b.toNat)) ∨ (15 < b.toNat ∧ keyOfByte b = none) := by
  unfold keyOfByte
  by_cases h : b.toNat ≤ 15
  · exact .inl ⟨h, if_pos h⟩
  · exact .inr ⟨by omega, if_neg h⟩

theorem execSkp_cases (x : Reg) (s : State) :
    (∃ k, (s.readV x).toNat = k.val ∧ execSkp x s = .next (s.skipIf (s.keyDown? k))) ∨
    (15 < (s.readV x).toNat ∧
      execSkp x s = .next (s.raise .keyIndexOutOfRange (some (encode (.skp x))))) := by
  unfold execSkp
  rcases keyOfByte_cases (s.readV x) with ⟨h, e⟩ | ⟨h, e⟩
  · exact .inl ⟨fin16 _, (fin16_val_of_lt (by omega)).symm, by rw [e]⟩
  · exact .inr ⟨h, by rw [e]; rfl⟩

theorem execSknp_cases (x : Reg) (s : State) :
    (∃ k, (s.readV x).toNat = k.val ∧ execSknp x s = .next (s.skipIf (!s.keyDown? k))) ∨
    (15 < (s.readV x).toNat ∧
      execSknp x s = .next (s.raise .keyIndexOutOfRange (some (encode (.sknp x))))) := by
  unfold execSknp
  rcases keyOfByte_cases (s.readV x) with ⟨h, e⟩ | ⟨h, e⟩
  · exact .inl ⟨fin16 _, (fin16_val_of_lt (by omega)).symm, by rw [e]⟩
  · exact .inr ⟨h, by rw [e]; rfl⟩

/-! ### Sprites -/

theorem Memory.readBlock_length_le (m : Memory) (base : Nat) (n : Nibble) :
    (m.readBlock base n.toNat).length ≤ 32 := by
  have := n.isLt
  rw [Memory.readBlock_length]
  omega

/-- The cells the draw engine toggles are those under the sprite. -/
theorem State.mem_cells_iff (s : State) (x y : Reg) (n : Nibble) (cx : Fin 64) (cy : Fin 32) :
    (cx, cy) ∈ spriteCells (s.readV x).toNat (s.readV y).toNat (s.mem.readBlock s.memBase n.toNat) ↔
      s.UnderSprite x y n cx cy := by
  rw [mem_spriteCells, Memory.readBlock_length]
  unfold State.UnderSprite
  constructor
  · rintro ⟨r, c, hr, hc, hb, he⟩
    rw [Memory.readBlock_getD _ _ _ hr] at hb
    obtain ⟨h1, h2⟩ := Prod.mk.inj he
    exact ⟨r, c, hr, hc, hb, by rw [h1]; rfl, by rw [h2]; rfl⟩
  · rintro ⟨r, c, hr, hc, hb, h1, h2⟩
    exact ⟨r, c, hr, hc, by rw [Memory.readBlock_getD _ _ _ hr]; exact hb, Prod.ext (Fin.ext h1) (Fin.ext h2)⟩

/-! ### Fetch, idle, step -/

theorem State.fetch_congr {s t : State} (hm : ∀ a, t.mem.read a = s.mem.read a) (hp : t.pc = s.pc) :
    t.fetch = s.fetch := by
  unfold State.fetch
  rw [hp, hm, hm]

theorem State.idle_eq_none_iff (s : State) : s.idle = none ↔ s.Runs := by
  unfold State.idle State.Runs
  cases s.fault <;> cases s.paused <;> cases s.wait <;> simp

/-- A core that does not execute: its step changes nothing. -/
theorem step_of_not_runs {s : State} (h : ¬ s.Runs) : step s = .next s := by
  rw [← s.idle_eq_none_iff] at h
  unfold step
  cases e : s.idle with
  | none => exact absurd e h
  | some r => rfl

/-- One more step of the host's run is a step, then the run. -/
theorem core_run_succ (k : Nat) (s : State) :
    Host.Core.run Sys2Proof.core (k + 1) s = Result.andThen (step s) (Host.Core.run Sys2Proof.core k) := by
  have h : Sys2Proof.core.step s = step s := rfl
  cases e : step s <;> rw [e] at h <;> simp only [Host.Core.run, h] <;> rfl

/-- Everything a step of a core that executes can be: a fetch fault, an illegal word, or the instruction. -/
theorem step_cases {s : State} (h : s.Runs) :
    (s.fetch = none ∧ step s = .next (s.raise .memoryOutOfRange none)) ∨
    (∃ op, s.fetch = some op ∧ decode op = .error (.illegalOpcode op) ∧
      step s = .next (s.raise .illegalOpcode (some op))) ∨
    (∃ op ins, s.fetch = some op ∧ decode op = .ok ins ∧ step s = exec ins s) := by
  have hi := (s.idle_eq_none_iff).mpr h
  cases hf : s.fetch with
  | none => exact .inl ⟨rfl, by simp [step, hi, State.fetchDecode, hf]⟩
  | some op =>
    cases hd : decode op with
    | ok ins => exact .inr (.inr ⟨op, ins, rfl, hd, by simp [step, hi, State.fetchDecode, hf, hd]⟩)
    | error e =>
      cases decode_error hd
      exact .inr (.inl ⟨op, rfl, hd, by simp [step, hi, State.fetchDecode, hf, hd]⟩)

/-! ### Memory keeps its canonical form -/

theorem State.reset_mem_wf : State.reset.mem.wf := Memory.wf_nil

theorem State.storeBytes_wf {s t : State} {base : Nat} {bs : List Byte} (h : s.mem.wf)
    (e : s.storeBytes base bs = some t) : t.mem.wf := by
  rcases s.storeBytes_cases base bs with ⟨hr, e'⟩ | ⟨-, e'⟩ <;> rw [e'] at e <;> cases e
  cases bs with
  | nil => exact h
  | cons b rest =>
    refine Memory.wf_writeBlock h ?_
    simpa [accessInRange_iff] using hr

theorem loadedMemory_wf (c : Config) {rom : List Byte} (h : rom.length ≤ maxRom) : (loadedMemory c rom).wf := by
  refine Memory.wf_writeBlock (Memory.wf_writeBlock Memory.wf_nil ?_) ?_
  · simp [memSize]
  · simp only [programBase, memSize, maxRom] at *
    omega

theorem State.placeWord_wf {s : State} (h : s.mem.wf) (op : Word) : (s.placeWord op).mem.wf := by
  unfold State.placeWord
  split
  next hp => exact Memory.wf_write (Memory.wf_write h (by simp [memSize]; omega) _) (by simp [memSize]; omega) _
  next => exact Memory.wf_write (Memory.wf_write h (by decide) _) (by decide) _

end Sys2Proof.Machine
end

