-- ==== Sys2Proof/Laws/PerInstr.lean ====
section
/-! SUPPORT. Laws made instruction by instruction. `RowMatch`: the word of an instruction has the fixed bits of its
row of 30_encoding.md R76 (op AND mask = match). -/

namespace Sys2Proof.Laws.RowMatch

/-- The encoded word fits the row of R76 the instruction stands in. -/
def Statement (i : Instr) : Prop := i.row.fits (encode i) = true

theorem fits_of_mask {r : OpcodeRow} {w : Word} (h : w &&& r.mask = r.value) : r.fits w = true := by
  simp [OpcodeRow.fits, h]

theorem cls : Statement .cls := by unfold Statement; decide

theorem ret : Statement .ret := by unfold Statement; decide

theorem sys (nnn : Addr12) : Statement (.sys nnn) := fits_of_mask ((encodeAddr_mask _ _).trans rfl)

theorem jp (nnn : Addr12) : Statement (.jp nnn) := fits_of_mask ((encodeAddr_mask _ _).trans rfl)

theorem call (nnn : Addr12) : Statement (.call nnn) := fits_of_mask ((encodeAddr_mask _ _).trans rfl)

theorem seImm (x : Reg) (kk : Byte) : Statement (.seImm x kk) := fits_of_mask ((encodeXKK_mask_class _ _ _).trans rfl)

theorem sneImm (x : Reg) (kk : Byte) : Statement (.sneImm x kk) := fits_of_mask ((encodeXKK_mask_class _ _ _).trans rfl)

theorem seReg (x : Reg) (y : Reg) : Statement (.seReg x y) := fits_of_mask ((encodeXYN_mask_sub _ _ _ _).trans rfl)

theorem ldImm (x : Reg) (kk : Byte) : Statement (.ldImm x kk) := fits_of_mask ((encodeXKK_mask_class _ _ _).trans rfl)

theorem addImm (x : Reg) (kk : Byte) : Statement (.addImm x kk) := fits_of_mask ((encodeXKK_mask_class _ _ _).trans rfl)

theorem ldReg (x : Reg) (y : Reg) : Statement (.ldReg x y) := fits_of_mask ((encodeXYN_mask_sub _ _ _ _).trans rfl)

theorem orReg (x : Reg) (y : Reg) : Statement (.orReg x y) := fits_of_mask ((encodeXYN_mask_sub _ _ _ _).trans rfl)

theorem andReg (x : Reg) (y : Reg) : Statement (.andReg x y) := fits_of_mask ((encodeXYN_mask_sub _ _ _ _).trans rfl)

theorem xorReg (x : Reg) (y : Reg) : Statement (.xorReg x y) := fits_of_mask ((encodeXYN_mask_sub _ _ _ _).trans rfl)

theorem addReg (x : Reg) (y : Reg) : Statement (.addReg x y) := fits_of_mask ((encodeXYN_mask_sub _ _ _ _).trans rfl)

theorem subReg (x : Reg) (y : Reg) : Statement (.subReg x y) := fits_of_mask ((encodeXYN_mask_sub _ _ _ _).trans rfl)

theorem shr (x : Reg) (y : Reg) : Statement (.shr x y) := fits_of_mask ((encodeXYN_mask_sub _ _ _ _).trans rfl)

theorem subnReg (x : Reg) (y : Reg) : Statement (.subnReg x y) := fits_of_mask ((encodeXYN_mask_sub _ _ _ _).trans rfl)

theorem shl (x : Reg) (y : Reg) : Statement (.shl x y) := fits_of_mask ((encodeXYN_mask_sub _ _ _ _).trans rfl)

theorem sneReg (x : Reg) (y : Reg) : Statement (.sneReg x y) := fits_of_mask ((encodeXYN_mask_sub _ _ _ _).trans rfl)

theorem ldI (nnn : Addr12) : Statement (.ldI nnn) := fits_of_mask ((encodeAddr_mask _ _).trans rfl)

theorem jpV0 (nnn : Addr12) : Statement (.jpV0 nnn) := fits_of_mask ((encodeAddr_mask _ _).trans rfl)

theorem rnd (x : Reg) (kk : Byte) : Statement (.rnd x kk) := fits_of_mask ((encodeXKK_mask_class _ _ _).trans rfl)

theorem drw (x : Reg) (y : Reg) (n : Nibble) : Statement (.drw x y n) := fits_of_mask ((encodeXYN_mask_class _ _ _ _).trans rfl)

theorem skp (x : Reg) : Statement (.skp x) := fits_of_mask ((encodeXKK_mask_sub _ _ _).trans rfl)

theorem sknp (x : Reg) : Statement (.sknp x) := fits_of_mask ((encodeXKK_mask_sub _ _ _).trans rfl)

theorem ldVxDt (x : Reg) : Statement (.ldVxDt x) := fits_of_mask ((encodeXKK_mask_sub _ _ _).trans rfl)

theorem ldVxK (x : Reg) : Statement (.ldVxK x) := fits_of_mask ((encodeXKK_mask_sub _ _ _).trans rfl)

theorem ldDtVx (x : Reg) : Statement (.ldDtVx x) := fits_of_mask ((encodeXKK_mask_sub _ _ _).trans rfl)

theorem ldStVx (x : Reg) : Statement (.ldStVx x) := fits_of_mask ((encodeXKK_mask_sub _ _ _).trans rfl)

theorem addIVx (x : Reg) : Statement (.addIVx x) := fits_of_mask ((encodeXKK_mask_sub _ _ _).trans rfl)

theorem ldFVx (x : Reg) : Statement (.ldFVx x) := fits_of_mask ((encodeXKK_mask_sub _ _ _).trans rfl)

theorem ldBVx (x : Reg) : Statement (.ldBVx x) := fits_of_mask ((encodeXKK_mask_sub _ _ _).trans rfl)

theorem ldMemVx (x : Reg) : Statement (.ldMemVx x) := fits_of_mask ((encodeXKK_mask_sub _ _ _).trans rfl)

theorem ldVxMem (x : Reg) : Statement (.ldVxMem x) := fits_of_mask ((encodeXKK_mask_sub _ _ _).trans rfl)

end Sys2Proof.Laws.RowMatch
end

