-- ==== Sys2Proof/Tests/Slice0.lean ====
section
/-! SUPPORT. Tests. Expected values are spec/95_test_vectors.md's (the vector's name stands in the comment), or words
written out from 30_encoding.md R72 and R76. Last: a state that meets the hypotheses of each obligation. -/

namespace Sys2Proof.Tests

open Sys2Proof Sys2Proof.Machine

/-! ### Well-formedness (30_encoding.md R75) -/

theorem test_sys_0E0_is_refused : (Instr.sys 0x0E0).wellFormed = false := by decide

theorem test_sys_0EE_is_refused : (Instr.sys 0x0EE).wellFormed = false := by decide

theorem test_sys_0E1_is_accepted : (Instr.sys 0x0E1).wellFormed = true := by decide

/-! ### Words of R76, written out bit by bit: class, x, y, n or kk or nnn -/

theorem test_decode_cls : decode 0b0000000011100000#16 = .ok (.cls) := by decide

theorem test_decode_ret : decode 0b0000000011101110#16 = .ok (.ret) := by decide

theorem test_decode_sys : decode 0b0000000100100011#16 = .ok (.sys 0x123) := by decide

theorem test_decode_jp : decode 0b0001101010111100#16 = .ok (.jp 0xABC) := by decide

theorem test_decode_call : decode 0b0010001101000101#16 = .ok (.call 0x345) := by decide

theorem test_decode_seImm : decode 0b0011001101000010#16 = .ok (.seImm 3 0x42) := by decide

theorem test_decode_sneImm : decode 0b0100001101000010#16 = .ok (.sneImm 3 0x42) := by decide

theorem test_decode_seReg : decode 0b0101000100100000#16 = .ok (.seReg 1 2) := by decide

theorem test_decode_ldImm : decode 0b0110101011111110#16 = .ok (.ldImm 10 0xFE) := by decide

theorem test_decode_addImm : decode 0b0111111100010000#16 = .ok (.addImm 15 0x10) := by decide

theorem test_decode_ldReg : decode 0b1000000100100000#16 = .ok (.ldReg 1 2) := by decide

theorem test_decode_orReg : decode 0b1000000100100001#16 = .ok (.orReg 1 2) := by decide

theorem test_decode_andReg : decode 0b1000000100100010#16 = .ok (.andReg 1 2) := by decide

theorem test_decode_xorReg : decode 0b1000000100100011#16 = .ok (.xorReg 1 2) := by decide

theorem test_decode_addReg : decode 0b1000000100100100#16 = .ok (.addReg 1 2) := by decide

theorem test_decode_subReg : decode 0b1000000100100101#16 = .ok (.subReg 1 2) := by decide

theorem test_decode_shr : decode 0b1000000100100110#16 = .ok (.shr 1 2) := by decide

theorem test_decode_subnReg : decode 0b1000000100100111#16 = .ok (.subnReg 1 2) := by decide

theorem test_decode_shl : decode 0b1000000100101110#16 = .ok (.shl 1 2) := by decide

theorem test_decode_sneReg : decode 0b1001000100100000#16 = .ok (.sneReg 1 2) := by decide

theorem test_decode_ldI : decode 0b1010000100100011#16 = .ok (.ldI 0x123) := by decide

theorem test_decode_jpV0 : decode 0b1011111111111110#16 = .ok (.jpV0 0xFFE) := by decide

theorem test_decode_rnd : decode 0b1100001011110001#16 = .ok (.rnd 2 0xF1) := by decide

theorem test_decode_drw : decode 0b1101000100100101#16 = .ok (.drw 1 2 5) := by decide

theorem test_decode_skp : decode 0b1110001110011110#16 = .ok (.skp 3) := by decide

theorem test_decode_sknp : decode 0b1110001110100001#16 = .ok (.sknp 3) := by decide

theorem test_decode_ldVxDt : decode 0b1111010100000111#16 = .ok (.ldVxDt 5) := by decide

theorem test_decode_ldVxK : decode 0b1111001100001010#16 = .ok (.ldVxK 3) := by decide

theorem test_decode_ldDtVx : decode 0b1111010100010101#16 = .ok (.ldDtVx 5) := by decide

theorem test_decode_ldStVx : decode 0b1111010100011000#16 = .ok (.ldStVx 5) := by decide

theorem test_decode_addIVx : decode 0b1111010100011110#16 = .ok (.addIVx 5) := by decide

theorem test_decode_ldFVx : decode 0b1111010100101001#16 = .ok (.ldFVx 5) := by decide

theorem test_decode_ldBVx : decode 0b1111010100110011#16 = .ok (.ldBVx 5) := by decide

theorem test_decode_ldMemVx : decode 0b1111001001010101#16 = .ok (.ldMemVx 2) := by decide

theorem test_decode_ldVxMem : decode 0b1111001001100101#16 = .ok (.ldVxMem 2) := by decide

theorem test_illegal_5xy1 : decode 0x5121 = .error (.illegalOpcode 0x5121) := by decide

theorem test_illegal_8xy8 : decode 0x8008 = .error (.illegalOpcode 0x8008) := by decide

theorem test_illegal_8xyF : decode 0x812F = .error (.illegalOpcode 0x812F) := by decide

theorem test_illegal_9xyF : decode 0x912F = .error (.illegalOpcode 0x912F) := by decide

theorem test_illegal_Ex00 : decode 0xE000 = .error (.illegalOpcode 0xE000) := by decide

theorem test_illegal_Fx00 : decode 0xF000 = .error (.illegalOpcode 0xF000) := by decide

theorem test_illegal_FFFF : decode 0xFFFF = .error (.illegalOpcode 0xFFFF) := by decide

/-- The table's numbering: bit 0 is the word's least significant bit. -/
theorem test_table_word : decodeTableWord 16 0xFF65 = some (.ldVxMem 15) := by decide

theorem test_table_word_illegal : decodeTableWord 16 0x8008 = none := by decide

/-! ### One step -/

/-- A next state that passes the check. -/
def nextIs (r : Result) (p : State → Bool) : Bool :=
  match r with
  | .next t => p t
  | .fault _ => false
  | .refused _ => false

/-- One step of the word, at the pc of a state built from reset. -/
def stepOf (w : Nat) (s : State) : Result := step (s.withFetchWord 16 w)

/-- Reset with these registers. -/
def withVs (l : List (Reg × Byte)) : State := l.foldl (fun s p => s.writeV p.1 p.2) State.reset

/-- `I`, and bytes from there. -/
def atI (s : State) (a : Word) (bs : List Byte) : State := { s with i := a, mem := s.mem.writeBlock a.toNat bs }

/-- Lit cells added to the display. -/
def withLit (s : State) (l : List (Fin 64 × Fin 32)) : State :=
  { s with disp := l.foldl (fun d p => d.put p.1 p.2 true) s.disp }

/-- These cells are lit, and those are not. -/
def cells (s : State) (lit unlit : List (Fin 64 × Fin 32)) : Bool :=
  lit.all (fun p => s.pixel p.1 p.2) && unlit.all (fun p => !s.pixel p.1 p.2)

/-- The fault the step records, with the pc it started from. -/
def faultIs (t : State) (kind : FaultKind) (pc : Word) (op : Option Word) : Bool := t.fault == some ⟨kind, pc, op⟩

/-- CF-01 -/
theorem test_sys_no_op : nextIs (stepOf 0x0123 State.reset)
    (fun t => t.pc == 0x202 && t.fault == none) = true := by
  decide

/-- CF-03 -/
theorem test_jp : nextIs (stepOf 0x1ABC State.reset)
    (fun t => t.pc == 0xABC) = true := by
  decide

/-- CF-05 -/
theorem test_call : nextIs (stepOf 0x2345 State.reset)
    (fun t => t.pc == 0x345 && t.sp == 1 && t.stackEntry 0 == 0x202) = true := by
  decide

/-- CF-07 -/
theorem test_call_overflow : nextIs (stepOf 0x2345 { State.reset with sp := 16 })
    (fun t => t.pc == 0x200 && t.sp == 16 && faultIs t .stackOverflow 0x200 (some 0x2345)) = true := by
  decide

/-- CF-08 -/
theorem test_ret : nextIs (stepOf 0x00EE { State.reset with sp := 1, stack := State.reset.stack.set 0 0x456 })
    (fun t => t.pc == 0x456 && t.sp == 0 && t.stackEntry 0 == 0x456) = true := by
  decide

/-- CF-09 -/
theorem test_ret_underflow : nextIs (stepOf 0x00EE State.reset)
    (fun t => t.pc == 0x200 && t.sp == 0 && faultIs t .stackUnderflow 0x200 (some 0x00EE)) = true := by
  decide

/-- CF-11 -/
theorem test_jpV0_no_wrap : nextIs (stepOf 0xBFFF (withVs [(0, 0xFF)]))
    (fun t => t.pc == 0x10FE) = true := by
  decide

/-- CF-12 to CF-15 -/
theorem test_seImm_taken : nextIs (stepOf 0x3342 (withVs [(3, 0x42)]))
    (fun t => t.pc == 0x204) = true := by
  decide

/-- CF-12 to CF-15, CF-21 -/
theorem test_seImm_not_taken_and_to_0x1000 :
    nextIs (stepOf 0x3342 (withVs [(3, 0x41)]))
    (fun t => t.pc == 0x202) = true ∧
    nextIs (stepOf 0x3000 { State.reset with pc := 0xFFC })
    (fun t => t.pc == 0x1000) = true := by
  decide

/-- CF-12 to CF-15 -/
theorem test_sneImm_taken : nextIs (stepOf 0x4342 (withVs [(3, 0x41)]))
    (fun t => t.pc == 0x204) = true := by
  decide

/-- CF-12 to CF-15 -/
theorem test_sneImm_not_taken : nextIs (stepOf 0x4342 (withVs [(3, 0x42)]))
    (fun t => t.pc == 0x202) = true := by
  decide

/-- CF-16 to CF-19 -/
theorem test_seReg_taken : nextIs (stepOf 0x5120 (withVs [(1, 0x07), (2, 0x07)]))
    (fun t => t.pc == 0x204) = true := by
  decide

/-- CF-16 to CF-19 -/
theorem test_seReg_not_taken : nextIs (stepOf 0x5120 (withVs [(1, 0x07), (2, 0x08)]))
    (fun t => t.pc == 0x202) = true := by
  decide

/-- CF-16 to CF-19 -/
theorem test_sneReg_taken : nextIs (stepOf 0x9120 (withVs [(1, 0x07), (2, 0x08)]))
    (fun t => t.pc == 0x204) = true := by
  decide

/-- CF-16 to CF-19 -/
theorem test_sneReg_not_taken : nextIs (stepOf 0x9120 (withVs [(1, 0x07), (2, 0x07)]))
    (fun t => t.pc == 0x202) = true := by
  decide

/-- CF-23 -/
theorem test_fetch_fault : nextIs (step { State.reset with pc := 0xFFF })
    (fun t => t.pc == 0xFFF && faultIs t .memoryOutOfRange 0xFFF none) = true := by decide

/-- CF-24 -/
theorem test_odd_fetch : nextIs (step { State.reset with pc := 0x201, mem := [(0x201, 0x60), (0x202, 0x77)] })
    (fun t => t.pc == 0x203 && t.readV 0 == 0x77) = true := by decide

/-- AL-01 -/
theorem test_ldImm : nextIs (stepOf 0x6AFF State.reset)
    (fun t => t.readV 10 == 0xFF && t.pc == 0x202) = true := by
  decide

/-- AL-02 -/
theorem test_addImm_wraps_no_flag : nextIs (stepOf 0x7001 (withVs [(0, 0xFF), (15, 0x55)]))
    (fun t => t.readV 0 == 0x00 && t.readV 15 == 0x55) = true := by
  decide

/-- AL-03 -/
theorem test_addImm_to_VF : nextIs (stepOf 0x7F10 (withVs [(15, 0x01)]))
    (fun t => t.readV 15 == 0x11) = true := by
  decide

/-- AL-04 -/
theorem test_ldReg : nextIs (stepOf 0x8010 (withVs [(1, 0x3C), (15, 0x77)]))
    (fun t => t.readV 0 == 0x3C && t.readV 15 == 0x77) = true := by
  decide

/-- AL-05 -/
theorem test_or : nextIs (stepOf 0x8011 (withVs [(0, 0xF0), (1, 0x0F), (15, 0x77)]))
    (fun t => t.readV 0 == 0xFF && t.readV 15 == 0x77) = true := by
  decide

/-- AL-06 -/
theorem test_and : nextIs (stepOf 0x8012 (withVs [(0, 0xF0), (1, 0x3C), (15, 0x77)]))
    (fun t => t.readV 0 == 0x30 && t.readV 15 == 0x77) = true := by
  decide

/-- AL-07 -/
theorem test_xor : nextIs (stepOf 0x8013 (withVs [(0, 0xF0), (1, 0x3C), (15, 0x77)]))
    (fun t => t.readV 0 == 0xCC && t.readV 15 == 0x77) = true := by
  decide

/-- AL-10 -/
theorem test_add_carry : nextIs (stepOf 0x8014 (withVs [(0, 0xFF), (1, 0x01)]))
    (fun t => t.readV 0 == 0x00 && t.readV 15 == 0x01) = true := by
  decide

/-- AL-14 -/
theorem test_add_from_VF : nextIs (stepOf 0x80F4 (withVs [(0, 0x10), (15, 0xF0)]))
    (fun t => t.readV 0 == 0x00 && t.readV 15 == 0x01) = true := by
  decide

/-- AL-16 -/
theorem test_sub_borrow : nextIs (stepOf 0x8015 (withVs [(0, 0x03), (1, 0x05)]))
    (fun t => t.readV 0 == 0xFE && t.readV 15 == 0x00) = true := by
  decide

/-- AL-17 -/
theorem test_sub_equal : nextIs (stepOf 0x8015 (withVs [(0, 0x04), (1, 0x04)]))
    (fun t => t.readV 0 == 0x00 && t.readV 15 == 0x01) = true := by
  decide

/-- AL-20 -/
theorem test_subn_no_borrow : nextIs (stepOf 0x8017 (withVs [(0, 0x03), (1, 0x05)]))
    (fun t => t.readV 0 == 0x02 && t.readV 15 == 0x01) = true := by
  decide

/-- AL-21 -/
theorem test_subn_borrow : nextIs (stepOf 0x8017 (withVs [(0, 0x05), (1, 0x03)]))
    (fun t => t.readV 0 == 0xFE && t.readV 15 == 0x00) = true := by
  decide

/-- AL-26 -/
theorem test_shr_ignores_Vy : nextIs (stepOf 0x8016 (withVs [(0, 0x04), (1, 0xFF)]))
    (fun t => t.readV 0 == 0x02 && t.readV 1 == 0xFF && t.readV 15 == 0x00) = true := by
  decide

/-- AL-27 -/
theorem test_shr_of_VF : nextIs (stepOf 0x8F06 (withVs [(15, 0x02)]))
    (fun t => t.readV 15 == 0x00) = true := by
  decide

/-- AL-28 -/
theorem test_shl : nextIs (stepOf 0x800E (withVs [(0, 0xFF)]))
    (fun t => t.readV 0 == 0xFE && t.readV 15 == 0x01) = true := by
  decide

/-- AL-31 -/
theorem test_shl_of_VF : nextIs (stepOf 0x8F0E (withVs [(15, 0x81)]))
    (fun t => t.readV 15 == 0x01) = true := by
  decide

/-- AL-32, for every value the draw can have: the draw is free. -/
theorem test_rnd_masks : nextIs (stepOf 0xC0F0 State.reset) (fun t => t.readV 0 == (Config.rngDraw 0 &&& 0xF0)) = true := by
  show ((State.reset.withFetchWord 16 0xC0F0).afterDraw.writeV 0 (Config.rngDraw 0 &&& 0xF0)).readV 0 ==
    (Config.rngDraw 0 &&& 0xF0)
  generalize Config.rngDraw 0 &&& 0xF0 = b
  exact beq_self_eq_true b

/-- AL-33: with kk = 0 the result is 0, whatever the draw. -/
theorem test_rnd_zero_mask : ∃ t, exec (.rnd 0 0x00) (withVs [(0, 0x12)]) = .next t ∧ t.readV 0 = 0 ∧ t.rngDraws = 1 :=
  ⟨_, rfl, BitVec.and_zero, rfl⟩

/-- AL-34 -/
theorem test_illegal_word_runs_to_a_fault : nextIs (stepOf 0x8008 State.reset)
    (fun t => t.pc == 0x200 && faultIs t .illegalOpcode 0x200 (some 0x8008)) = true := by
  decide

/-- IM-01 -/
theorem test_ldI : nextIs (stepOf 0xA123 State.reset)
    (fun t => t.i == 0x123) = true := by
  decide

/-- IM-02 -/
theorem test_addI_no_flag : nextIs (stepOf 0xF01E (atI (withVs [(0, 0x01), (15, 0x33)]) 0xFFF []))
    (fun t => t.i == 0x1000 && t.readV 15 == 0x33) = true := by
  decide

/-- IM-03 -/
theorem test_addI_wraps : nextIs (stepOf 0xF01E (atI (withVs [(0, 0x02)]) 0xFFFF []))
    (fun t => t.i == 0x001) = true := by
  decide

/-- IM-04 -/
theorem test_ldF : nextIs (stepOf 0xF029 (withVs [(0, 0x0A)]))
    (fun t => t.i == 0x032) = true := by
  decide

/-- IM-06 -/
theorem test_ldF_not_masked : nextIs (stepOf 0xF029 (withVs [(0, 0xFF)]))
    (fun t => t.i == 0x4FB) = true := by
  decide

/-- IM-08 -/
theorem test_bcd : nextIs (stepOf 0xF033 (atI (withVs [(0, 0xFF)]) 0x300 []))
    (fun t => t.mem.readBlock 0x300 3 == [2, 5, 5] && t.i == 0x300) = true := by
  decide

/-- IM-12 -/
theorem test_bcd_out_of_range : nextIs (stepOf 0xF033 (atI (withVs [(0, 0x7B)]) 0xFFE []))
    (fun t => t.mem.readBlock 0xFFE 2 == [0, 0] && faultIs t .memoryOutOfRange 0x200 (some 0xF033)) = true := by
  decide

/-- IM-13 -/
theorem test_block_store : nextIs (stepOf 0xF255 (atI (withVs [(0, 0x01), (1, 0x02), (2, 0x03), (3, 0x04)]) 0x300 []))
    (fun t => t.mem.readBlock 0x300 4 == [1, 2, 3, 0] && t.i == 0x300) = true := by
  decide

/-- IM-15 -/
theorem test_block_store_out_of_range : nextIs (stepOf 0xF155 (atI (withVs [(0, 0xAA), (1, 0xBB)]) 0xFFF []))
    (fun t => t.mem.read 0xFFF == 0 && faultIs t .memoryOutOfRange 0x200 (some 0xF155)) = true := by
  decide

/-- IM-16 -/
theorem test_block_load : nextIs (stepOf 0xF265 (atI (withVs [(3, 0x55)]) 0x300 [9, 8, 7, 6]))
    (fun t => t.v.toList.take 4 == [9, 8, 7, 0x55] && t.i == 0x300) = true := by
  decide

/-- IM-18 -/
theorem test_block_load_out_of_range : nextIs (stepOf 0xF065 (atI (withVs [(0, 0x11)]) 0x1000 []))
    (fun t => t.readV 0 == 0x11 && faultIs t .memoryOutOfRange 0x200 (some 0xF065)) = true := by
  decide

/-- DS-02, DS-08 -/
theorem test_drw :
    nextIs (stepOf 0xD011 (withLit (atI State.reset 0x300 [0x80]) [(0, 0), (1, 0)]))
    (fun t => cells t [(1, 0)] [(0, 0), (2, 0), (1, 1)] && t.readV 15 == 0x01) = true ∧
    nextIs (stepOf 0xDF01 (atI (withVs [(15, 0x05)]) 0x300 [0x80]))
    (fun t => cells t [(5, 0)] [(0, 0), (4, 0), (6, 0), (15, 0)] && t.readV 15 == 0x00) = true := by
  decide

/-- DS-04, DS-05, DS-10 -/
theorem test_drw_at_the_edges :
    nextIs (stepOf 0xD011 (atI (withVs [(0, 0x3C)]) 0x300 [0xFF]))
    (fun t => cells t [(0, 0), (1, 0), (2, 0), (3, 0), (60, 0), (61, 0), (62, 0), (63, 0)] [(4, 0), (59, 0), (60, 1), (0, 1)]) = true ∧
    nextIs (stepOf 0xD012 (atI (withVs [(1, 0x1F)]) 0x300 [0x80, 0x80]))
    (fun t => cells t [(0, 0), (0, 31)] [(0, 1), (0, 30), (1, 0)]) = true ∧
    nextIs (stepOf 0xD013 (withLit (atI State.reset 0xFFE [0x80]) [(9, 9)]))
    (fun t => cells t [(9, 9)] [(0, 0)] && faultIs t .memoryOutOfRange 0x200 (some 0xD013)) = true := by
  decide

/-- DS-11 -/
theorem test_cls : nextIs (stepOf 0x00E0 (withLit (withVs [(15, 0x01)]) [(0, 0), (63, 31)]))
    (fun t => cells t [] [(0, 0), (63, 31), (0, 31)] && t.readV 15 == 0x01) = true := by
  decide

/-- KT-01 -/
theorem test_skp_down : nextIs (stepOf 0xE09E ((withVs [(0, 0x05)]).setKey 5 true))
    (fun t => t.pc == 0x204) = true := by
  decide

/-- KT-05 -/
theorem test_skp_bad_key : nextIs (stepOf 0xE09E (withVs [(0, 0x10)]))
    (fun t => t.pc == 0x200 && faultIs t .keyIndexOutOfRange 0x200 (some 0xE09E)) = true := by
  decide

/-- KT-04 -/
theorem test_sknp_down : nextIs (stepOf 0xE0A1 ((withVs [(0, 0x05)]).setKey 5 true))
    (fun t => t.pc == 0x202) = true := by
  decide

/-- KT-03 -/
theorem test_sknp_up : nextIs (stepOf 0xE0A1 (withVs [(0, 0x05)]))
    (fun t => t.pc == 0x204) = true := by
  decide

/-- KT-08 -/
theorem test_ldVxK : nextIs (stepOf 0xF30A State.reset)
    (fun t => t.pc == 0x200 && t.wait == some 3) = true := by
  decide

/-- KT-10 -/
theorem test_ldVxDt : nextIs (stepOf 0xF507 { State.reset with dt := 42 })
    (fun t => t.readV 5 == 0x2A) = true := by
  decide

/-- KT-11 -/
theorem test_ldDtVx : nextIs (stepOf 0xF515 (withVs [(5, 0x3C)]))
    (fun t => t.dt == 60) = true := by
  decide

/-- KT-12 -/
theorem test_ldStVx : nextIs (stepOf 0xF518 (withVs [(5, 0x01)]))
    (fun t => t.st == 1) = true := by
  decide

/-! ### Host events -/

/-- The state events leave, checked; the replies are all `done`. -/
def eventsGive (b : Bool) (es : List Event) (s : State) (p : State → Bool) : Bool :=
  match applyEvents (defaultConfig b) es s with
  | .next (t, rs) => p t && rs.all (· == .done)
  | .fault _ => false
  | .refused _ => false

/-- Waiting at a Fx0A with x = 3. -/
def waiting3 : State := { State.reset.withFetchWord 16 0xF30A with wait := some 3 }

/-- EV-01 -/
theorem test_capture : eventsGive false [.keyDown 7] waiting3
    (fun t => t.readV 3 == 7 && t.pc == 0x202 && t.wait == none && t.keyDown? 7) = true := by decide

/-- EV-02, EV-03: a key that is already down completes nothing until it is released. -/
theorem test_held_key : eventsGive false [.keyDown 7] (waiting3.setKey 7 true) (fun t => t.wait == some 3) = true ∧
    eventsGive false [.keyUp 7, .keyDown 7] (waiting3.setKey 7 true) (fun t => t.wait == none) = true := by decide

/-- EV-05 -/
theorem test_no_capture_while_paused : eventsGive false [.pauseToggle, .keyDown 7, .pauseToggle, .frame] waiting3
    (fun t => t.wait == some 3 && t.pc == 0x200 && t.keyDown? 7 && t.readV 3 == 0) = true := by decide

/-- EV-07, EV-08 -/
theorem test_timers_while_waiting :
    eventsGive false [.frame] { waiting3 with dt := 5, st := 5 } (fun t => t.dt == 5 && t.st == 5) = true ∧
    eventsGive true [.frame] { waiting3 with dt := 5, st := 5 } (fun t => t.dt == 4 && t.st == 4) = true := by decide

/-- EV-09 -/
theorem test_tick_comes_first : eventsGive false [.load [0x60, 0x05, 0xF0, 0x15, 0xF3, 0x0A], .frame] State.reset
    (fun t => t.dt == 5 && t.wait == some 3 && t.pc == 0x204) = true := by decide +kernel

/-- EV-11, EV-12 -/
theorem test_paused_frame : eventsGive false
    [.load [0x70, 0x01, 0x12, 0x00], .pauseToggle, .frame, .pauseToggle, .frame] State.reset
    (fun t => t.readV 0 == 8 && t.pc == 0x202) = true := by decide +kernel

/-- EV-13 -/
theorem test_fault_halts : eventsGive false [.load [0x00, 0xEE], .frame, .frame] State.reset
    (fun t => faultIs t .stackUnderflow 0x200 (some 0x00EE)) = true := by decide +kernel

/-- EV-16: two and a half periods, then half a period, on a core whose frames run a jump to itself. -/
theorem test_advance : eventsGive false [.load [0x12, 0x00], .advance 2500000000] State.reset
      (fun t => t.lag == 500000000) = true ∧
    eventsGive false [.load [0x12, 0x00], .advance 2500000000, .advance 500000000] State.reset
      (fun t => t.lag == 0) = true := by decide +kernel

/-- EV-21 -/
theorem test_load_clears_a_fault : eventsGive false [.load [0x00, 0xEE], .frame, .load [0x12, 0x00]] State.reset
    (fun t => t.fault == none && t.pc == 0x200 && t.sp == 0) = true := by decide +kernel

/-- Program P6 of the vectors, its first frame. -/
theorem test_delay_timer_program : eventsGive false
    [.load [0x60, 0x03, 0xF0, 0x15, 0xF1, 0x07, 0x31, 0x00, 0x12, 0x04, 0x12, 0x0A], .frame] State.reset
    (fun t => t.dt == 3 && t.readV 1 == 3 && t.pc == 0x206) = true := by decide +kernel

/-- Reset is the load of the empty image with the default FONT (notes/assumptions/2.md). -/
theorem test_reset_is_the_empty_load : State.load (defaultConfig false) [] State.reset = .ok State.reset := by
  decide +kernel

/-- The default FONT is at 0x000 (10_state.md R31): the glyph of 5, and the byte after the last glyph. -/
theorem test_font : State.reset.mem.readBlock 25 5 = [0xF0, 0x80, 0xF0, 0x10, 0xF0] ∧
    State.reset.mem.readBlock 78 3 = [0x80, 0x80, 0x00] := by decide

/-! ### Witnesses: states and operands that meet the hypotheses of each obligation, at the ends of their ranges -/

/-- A core about to run a word, at reset otherwise. -/
def about (w : Nat) : State := State.reset.withFetchWord 16 w

/-- A faulted core: RET on an empty stack. -/
def faulted : State := (about 0x00EE).raise .stackUnderflow (some 0x00EE)

theorem wit_DecodeOfEncode : (Instr.sys 0xFFF).wellFormed = true ∧ (Instr.drw 15 15 15).wellFormed = true := by decide

theorem wit_DecodingFollowsTheTable :
    decode 0x8125 = .ok (.subReg 1 2) ∧
    (⟨0xF065, 0xF0FF⟩ : OpcodeRow) ∈ opcodeTable ∧ (⟨0xF065, 0xF0FF⟩ : OpcodeRow).fits 0xFF65 = true ∧
    (⟨0x0000, 0xF000⟩ : OpcodeRow) ∈ opcodeTable ∧ (⟨0x0000, 0xF000⟩ : OpcodeRow).fits 0x00EE = true ∧
    (⟨0x00EE, 0xFFFF⟩ : OpcodeRow) ∈ opcodeTable ∧ (⟨0x00EE, 0xFFFF⟩ : OpcodeRow).fits 0x00EE = true := by decide

theorem wit_ClassZero : (0x0FFF : Word).toNat ≤ 0x0FFF ∧ (0x0FFF : Word) ≠ 0x00E0 ∧ (0x0FFF : Word) ≠ 0x00EE := by
  decide

theorem wit_IllegalWords_classF :
    (about 0xFFFF).Runs ∧ (about 0xFFFF).fetch = some 0xFFFF ∧ IllegalWord 0xFFFF := by
  unfold State.Runs IllegalWord IllegalFields
  decide

theorem wit_IllegalWords_classE :
    (about 0xEFA2).Runs ∧ (about 0xEFA2).fetch = some 0xEFA2 ∧ IllegalWord 0xEFA2 := by
  unfold State.Runs IllegalWord IllegalFields
  decide

theorem wit_IllegalWords_class8 :
    (about 0x812F).Runs ∧ (about 0x812F).fetch = some 0x812F ∧ IllegalWord 0x812F := by
  unfold State.Runs IllegalWord IllegalFields
  decide

theorem wit_IllegalWords_class5 :
    (about 0x5121).Runs ∧ (about 0x5121).fetch = some 0x5121 ∧ IllegalWord 0x5121 := by
  unfold State.Runs IllegalWord IllegalFields
  decide

theorem wit_StepRuns :
    let s := { State.reset with pc := 0xFFE }.withFetchWord 16 0x00E0
    s.Runs ∧ s.pc.toNat ≤ 0xFFE ∧ decode (s.mem.read s.pc.toNat ++ s.mem.read (s.pc.toNat + 1)) = .ok .cls := by
  unfold State.Runs
  decide

theorem wit_FetchFaults :
    { State.reset with pc := 0xFFF }.Runs ∧ { State.reset with pc := 0xFFF }.pc.toNat > 0xFFE ∧
    { State.reset with pc := 0xFFE }.pc.toNat ≤ 0xFFE := by
  unfold State.Runs
  decide

theorem wit_HaltedPausedAndWaiting :
    faulted.fault ≠ none ∧
    State.reset.pauseToggle.fault = none ∧ State.reset.pauseToggle.paused = true ∧
    waiting3.fault = none ∧ waiting3.paused = false ∧ waiting3.wait ≠ none := by decide

theorem wit_FaultsArePrecise :
    ∃ t r, step (about 0x00EE) = .next t ∧ (about 0x00EE).fault = none ∧ t.fault = some r ∧
      r.kind = .stackUnderflow :=
  ⟨faulted, _, rfl, rfl, rfl, rfl⟩

theorem wit_FaultsArePrecise_fetch :
    ∃ t r, step { State.reset with pc := 0x1000 } = .next t ∧ State.reset.fault = none ∧ t.fault = some r ∧
      r.opcode = none :=
  ⟨_, _, rfl, rfl, rfl, rfl⟩

theorem wit_OnlyLoadClears :
    ∃ r t q, faulted.fault = some r ∧ (∀ rom, Event.keyDown 7 ≠ .load rom) ∧
      applyEvent (defaultConfig false) (.keyDown 7) faulted = .next (t, q) ∧
      ∃ u, applyEvent (defaultConfig false) (.load []) faulted = .next (u, .done) :=
  ⟨_, _, _, rfl, nofun, rfl, _, rfl⟩

theorem wit_OthersNeverFault :
    (∀ a, Instr.jp 0 ≠ .call a) ∧ Instr.jp 0 ≠ .ret ∧ (∀ x y n, Instr.jp 0 ≠ .drw x y n) ∧
    (∀ x, Instr.jp 0 ≠ .skp x) ∧ (∀ x, Instr.jp 0 ≠ .sknp x) ∧ (∀ x, Instr.jp 0 ≠ .ldBVx x) ∧
    (∀ x, Instr.jp 0 ≠ .ldMemVx x) ∧ (∀ x, Instr.jp 0 ≠ .ldVxMem x) :=
  ⟨nofun, nofun, nofun, nofun, nofun, nofun, nofun, nofun⟩

theorem wit_StepAlwaysGoesOn : { State.reset with sp := 16 }.sp.toNat ≤ 16 := by decide

theorem wit_Invariant_running : ∃ t, (about 0x00E0).Inv ∧ step (about 0x00E0) = .next t :=
  ⟨_, ⟨by decide, by decide, nofun, fun h => absurd rfl h, nofun, nofun⟩, rfl⟩

theorem wit_Invariant_waiting : waiting3.Inv ∧ step waiting3 = .next waiting3 :=
  ⟨⟨by decide, by decide, fun x h => by cases h; decide, nofun, nofun, nofun⟩, rfl⟩

theorem wit_Invariant_faulted : faulted.Inv ∧ step faulted = .next faulted :=
  ⟨⟨by decide, by decide, nofun, fun _ => rfl, fun r h => by cases h; decide, fun r h => by cases h; decide⟩, rfl⟩

theorem wit_Reachable : ∃ s, Reachable (defaultConfig false) s ∧ s.keyDown? 7 = true ∧ s.pc = 0x202 :=
  ⟨_, .event (e := .keyDown 7) (.step .reset rfl) rfl, by decide, by decide⟩

theorem wit_StackPointerUse :
    ∃ t, (∀ a, Instr.ldVxMem 15 ≠ .call a) ∧ Instr.ldVxMem 15 ≠ .ret ∧
      exec (.ldVxMem 15) State.reset = .next t ∧ t.fault = none :=
  ⟨_, nofun, nofun, rfl, rfl⟩

/-- The hypotheses of the frame rules: one next state, and an instruction that is none of the writers. -/
theorem wit_Writers :
    ∃ t, exec (.addReg 1 2) State.reset = .next t ∧ (∀ a, Instr.addReg 1 2 ≠ .ldI a) ∧
      (∀ x, Instr.addReg 1 2 ≠ .addIVx x) ∧ (∀ x, Instr.addReg 1 2 ≠ .ldFVx x) ∧
      (∀ x, Instr.addReg 1 2 ≠ .ldBVx x) ∧ (∀ x, Instr.addReg 1 2 ≠ .ldMemVx x) ∧ Instr.addReg 1 2 ≠ .cls ∧
      (∀ x y n, Instr.addReg 1 2 ≠ .drw x y n) ∧ (∀ x, Instr.addReg 1 2 ≠ .ldDtVx x) ∧
      (∀ x, Instr.addReg 1 2 ≠ .ldStVx x) ∧ (∀ x, Instr.addReg 1 2 ≠ .ldVxK x) ∧
      (∀ x kk, Instr.addReg 1 2 ≠ .rnd x kk) ∧ (∀ x, Instr.addReg 1 2 ≠ .ldVxMem x) ∧
      (∀ a, Instr.addReg 1 2 ≠ .call a) ∧ Instr.addReg 1 2 ≠ .ret ∧ (∀ x, Instr.addReg 1 2 ≠ .skp x) ∧
      (∀ x, Instr.addReg 1 2 ≠ .sknp x) ∧ 3 ∉ destinations (.addReg 1 2) :=
  ⟨_, rfl, nofun, nofun, nofun, nofun, nofun, nofun, nofun, nofun, nofun, nofun, nofun, nofun, nofun, nofun, nofun,
    nofun, by decide⟩

theorem wit_NextPc :
    ∃ t u, exec (.jpV0 0xFFF) (withVs [(0, 0xFF)]) = .next t ∧ t.fault = none ∧
      exec (.seImm 0 0) { State.reset with pc := 0xFFFC } = .next u ∧ u.fault = none ∧ u.pc = 0 :=
  ⟨_, _, rfl, rfl, rfl, rfl, by decide⟩

theorem wit_CallRet :
    { State.reset with sp := 15 }.sp.toNat < 16 ∧ { State.reset with sp := 16 }.sp.toNat = 16 ∧
    0 < { State.reset with sp := 1 }.sp.toNat ∧ { State.reset with sp := 16 }.sp.toNat ≤ 16 ∧
    State.reset.sp.toNat = 0 := by decide

/-- The range checks of Fx33, Fx55, Fx65 and Dxyn, just inside and just outside. -/
theorem wit_MemoryRanges :
    (atI State.reset 0xFFD []).i.toNat + 2 ≤ 0xFFF ∧ (atI State.reset 0xFFE []).i.toNat + 2 > 0xFFF ∧
    (atI State.reset 0xFF0 []).i.toNat + (15 : Reg).val ≤ 0xFFF ∧
    (atI State.reset 0xFF1 []).i.toNat + (15 : Reg).val > 0xFFF ∧
    ((15 : Nibble) ≠ 0 ∧ (atI State.reset 0xFF1 []).i.toNat + (15 : Nibble).toNat - 1 ≤ 0xFFF) ∧
    ((15 : Nibble) ≠ 0 ∧ (atI State.reset 0xFF2 []).i.toNat + (15 : Nibble).toNat - 1 > 0xFFF) ∧
    ((0 : Nibble) = 0 ∧ (atI State.reset 0xFFFF []).i.toNat = 0xFFFF) ∧ (0 : Reg) ≠ vF ∧ (1 : Reg) ≠ vF := by decide

theorem wit_StoreThenLoad :
    ∃ t, (0x300 : Word).toNat + (2 : Reg).val ≤ 0xFFF ∧
      exec (.ldMemVx 2) (atI (withVs [(0, 1), (1, 2), (2, 3)]) 0x300 []) = .next t ∧
      OnlyChanges (.pc :: regParts 2) t (t.writeV 1 0) := by
  refine ⟨_, by decide, rfl, fun p hp => ?_⟩
  cases p with
  | v x =>
    have h : ∀ y : Reg, Part.v y ∉ Part.pc :: regParts 2 → y ≠ 1 := by decide
    unfold Part.same State.readV State.writeV
    have hx := h x hp
    simp only [Fin.getElem_fin, Vector.getElem_set]
    rw [if_neg (fun e => hx (Fin.ext e.symm))]
  | _ => rfl

theorem wit_StoredBytesAreFetched :
    ∃ t, (atI (withVs [(0, 0x61), (1, 0x99)]) 0x202 []).i = State.reset.pc + 2 ∧
      (0x202 : Word).toNat + (1 : Reg).val ≤ 0xFFF ∧ 1 ≤ (1 : Reg).val ∧
      exec (.ldMemVx 1) (atI (withVs [(0, 0x61), (1, 0x99)]) 0x202 []) = .next t :=
  ⟨_, by decide, by decide, by decide, rfl⟩

theorem wit_UnderSprite : (atI State.reset 0x300 [0x80]).UnderSprite 0 1 1 0 0 ∧
    ¬ (atI State.reset 0x300 [0x80]).UnderSprite 0 1 1 1 0 := by
  refine ⟨⟨0, 0, by decide⟩, ?_⟩
  rintro ⟨r, c, hr, hc, hb, hx, -⟩
  have hr0 : r = 0 := by
    have : (1 : Nibble).toNat = 1 := rfl
    omega
  have hc1 : c = 1 := by
    have h0 : ((atI State.reset 0x300 [0x80]).readV 0).toNat = 0 := by decide
    rw [h0] at hx
    have h1 : ((1 : Fin 64)).val = 1 := rfl
    omega
  rw [hr0, hc1] at hb
  exact absurd hb (by decide)

theorem wit_Keys :
    ((withVs [(0, 15)]).readV 0).toNat = (15 : Key).val ∧ ((withVs [(0, 16)]).readV 0).toNat > 0x0F := by decide

theorem wit_KeyEvents :
    (waiting3.wait = some 3 ∧ waiting3.paused = false ∧ waiting3.fault = none ∧ waiting3.keyDown? 15 = false) ∧
    State.reset.wait = none ∧ waiting3.pauseToggle.paused = true ∧ faulted.fault ≠ none ∧
    (waiting3.setKey 15 true).keyDown? 15 = true := by decide

theorem wit_WaitEnds :
    ∃ t, (about 0xF30A).Runs ∧ step (about 0xF30A) = .next t ∧ t.wait = some 3 ∧
      (about 0xF30A).keyDown? 7 = false :=
  ⟨waiting3, ⟨rfl, rfl, rfl⟩, rfl, rfl, by decide⟩

/-- Events at a wait: one that keeps it, and the two kinds that end it. -/
theorem wit_WaitEvents :
    waiting3.wait = some 3 ∧
    (∃ t, applyEvent (defaultConfig true) .frame { waiting3 with dt := 5 } = .next (t, .done) ∧ t.wait = some 3) ∧
    (∃ t, applyEvent (defaultConfig true) (.keyDown 15) waiting3 = .next (t, .done) ∧ t.wait = none) ∧
    (∃ t, applyEvent (defaultConfig true) (.load []) waiting3 = .next (t, .done) ∧ t.wait = none) :=
  ⟨rfl, ⟨_, rfl, rfl⟩, ⟨_, rfl, rfl⟩, ⟨_, rfl, rfl⟩⟩

theorem wit_Frames :
    ∃ t, (about 0x00EE).Runs ∧ frame (defaultConfig false) (about 0x00EE) = .next t ∧ t.fault ≠ none :=
  ⟨_, ⟨rfl, rfl, rfl⟩, rfl, nofun⟩

theorem wit_Advance :
    State.reset.lag + 999999999 < (defaultConfig false).tickPeriod ∧
    (defaultConfig false).tickPeriod ≤ State.reset.lag + 1000000000 ∧
    advance (defaultConfig false) 999999999 State.reset = .next { State.reset with lag := 999999999 } :=
  ⟨by decide, by decide, rfl⟩

theorem wit_Load :
    (3584 < (List.replicate 3585 (0 : Byte)).length) ∧ (List.replicate 3584 (0 : Byte)).length ≤ 3584 := by
  simp only [List.length_replicate]
  decide

theorem wit_KeyNumbers : 15 < 16 ∧
    applyEvent (defaultConfig false) (.keyUp 15) State.reset = .next (State.reset.keyUp 15, .done) := ⟨by decide, rfl⟩

end Sys2Proof.Tests
end

section
/-! Loading a program image (60_exceptions.md R253, 70_reset_and_hazards.md R270): the bytes of a loaded memory, the
values of the reset state (10_state.md R35), and the two answers of `load`. -/

namespace Sys2Proof.Machine

/-! ### The bytes of a loaded memory -/

/-- The representation's default is zero above the font (notes/assumptions/8.md). -/
theorem Memory.blank_of_font_le {a : Nat} (h : 80 ≤ a) : Memory.blank a = 0 :=
  List.getD_eq_default _ _ h

/-- R270: the font at 0x000, the image at 0x200, zero elsewhere. -/
theorem loadedMemory_read (c : Config) (rom : List Byte) (a : Nat) :
    (loadedMemory c rom).read a =
      if h : a < 80 then c.font[a] else
      if 0x200 ≤ a ∧ a < 0x200 + rom.length then rom.getD (a - 0x200) 0 else 0 := by
  unfold loadedMemory
  rw [Memory.read_writeBlock, Memory.read_writeBlock]
  by_cases hf : a < 80
  · have hi : ¬ (programBase ≤ a ∧ a < programBase + rom.length) := by simp only [programBase]; omega
    simp [hf, hi]
  · have hz : Memory.read [] a = 0 := Memory.blank_of_font_le (Nat.le_of_not_lt hf)
    simp [hf, hz]

/-! ### The reset state, through the accessors -/

@[simp] theorem State.reset_readV (x : Reg) : State.reset.readV x = 0 := by
  simp [State.readV, State.reset]

@[simp] theorem State.reset_stackEntry (j : Fin 16) : State.reset.stackEntry j = 0 := by
  simp [State.stackEntry, State.reset]

@[simp] theorem State.reset_pixel (x : Fin 64) (y : Fin 32) : State.reset.pixel x y = false :=
  Display.lit_clear x y

@[simp] theorem State.reset_keyDown? (k : Key) : State.reset.keyDown? k = false := by
  simp [State.keyDown?, State.reset]

/-! ### The two answers of `load` -/

theorem State.load_of_too_long (c : Config) {rom : List Byte} (s : State) (h : maxRom < rom.length) :
    s.load c rom = .error .programTooLarge := if_pos h

/-- An accepted load leaves the reset state, but for the memory and the count of draws (notes/assumptions/1.md). -/
theorem State.load_of_fits (c : Config) {rom : List Byte} (s : State) (h : rom.length ≤ maxRom) :
    s.load c rom = .ok { State.reset with mem := loadedMemory c rom, rngDraws := s.rngDraws } :=
  if_neg (Nat.not_lt.mpr h)

theorem applyEvent_load_of_error {c : Config} {rom : List Byte} {s : State} {kind : FaultKind}
    (h : s.load c rom = .error kind) : applyEvent c (.load rom) s = .next (s, .rejected kind) := by
  simp only [applyEvent, h]

theorem applyEvent_load_of_ok {c : Config} {rom : List Byte} {s t : State} (h : s.load c rom = .ok t) :
    applyEvent c (.load rom) s = .next (t, .done) := by
  simp only [applyEvent, h]

/-- Settles O57: the length check decides; an accepted load leaves the reset state with the loaded memory. -/
theorem loadResetsOrRejects : Obligations.LoadResetsOrRejects := by
  intro c rom s
  constructor
  · intro hlong
    exact applyEvent_load_of_error (s.load_of_too_long c hlong)
  · intro hfits
    exact ⟨_, applyEvent_load_of_ok (s.load_of_fits c hfits), loadedMemory_read c rom,
      State.reset_readV, rfl, rfl, rfl, State.reset_stackEntry, rfl, rfl,
      State.reset_pixel, State.reset_keyDown?, rfl, rfl, rfl, rfl⟩

end Sys2Proof.Machine
end

section
/-! Class 0 of the decoder (30_encoding.md R75): CLS, RET and SYS, and the frame of the uniform pc increment, which is
all that SYS does. -/

namespace Sys2Proof

/-! ### Decoding class 0 -/

theorem fieldNNN_eq_setWidth (op : Word) : fieldNNN op = op.setWidth 12 :=
  BitVec.setWidth_eq_extractLsb' (by decide) |>.symm

/-- The words 0x0000 to 0x0FFF are those of class 0. -/
theorem fieldClass_eq_zero_iff (op : Word) : fieldClass op = 0#4 ↔ op.toNat ≤ 0x0FFF := by
  have hclass : (fieldClass op).toNat = op.toNat / 2 ^ 12 % 2 ^ 4 := by
    rw [fieldClass, BitVec.extractLsb'_toNat, Nat.shiftRight_eq_div_pow]
  have hop := op.isLt
  rw [← BitVec.toNat_inj, hclass, BitVec.toNat_zero]
  omega

theorem decode_of_class_zero {op : Word} (h : fieldClass op = 0#4) : decode op = .ok (decodeClass0 op) := by
  simp [decode, h]

theorem decodeClass0_of_ne {op : Word} (hcls : op ≠ 0x00E0) (hret : op ≠ 0x00EE) :
    decodeClass0 op = .sys (fieldNNN op) :=
  (if_neg hcls).trans (if_neg hret)

namespace Machine

/-! ### The uniform pc increment -/

/-- The frame of R102's increment: pc alone changes. -/
theorem State.onlyChanges_fallThrough (s : State) : OnlyChanges [.pc] s s.fallThrough := by
  intro p hp
  cases p with
  | pc => exact absurd (List.mem_singleton_self _) hp
  | _ => rfl

theorem exec_sys (nnn : Addr12) (s : State) : exec (.sys nnn) s = .next s.fallThrough := rfl

/-- Settles O4: a word of class 0 is decoded by `decodeClass0`, and SYS is the pc increment alone. -/
theorem classZeroIsClsRetOrANoOp : Obligations.ClassZeroIsClsRetOrANoOp := by
  refine ⟨by decide, by decide, ?_, ?_⟩
  · intro op hclass hcls hret
    rw [decode_of_class_zero ((fieldClass_eq_zero_iff op).mpr hclass), decodeClass0_of_ne hcls hret,
      fieldNNN_eq_setWidth]
  · intro nnn s
    exact ⟨s.fallThrough, exec_sys nnn s, s.fallThrough_pc, s.onlyChanges_fallThrough⟩

end Machine
end Sys2Proof
end

section
/-! Control transfer (40_control_flow.md): what changes of the state add up to, the frame of each operation that moves
pc, the stack pointer or the fault record, and what the jumps, CALL, RET, the comparing skips and a fetch fault do. -/

namespace Sys2Proof.Machine

/-! ### Frames add up -/

theorem Part.same.trans {p : Part} {s t u : State} (hst : p.same s t) (htu : p.same t u) : p.same s u := by
  cases p <;> exact Eq.trans htu hst

/-- Two changes in a row change what one of them changes. -/
theorem OnlyChanges.trans {ps qs rs : List Part} {s t u : State} (hst : OnlyChanges ps s t) (htu : OnlyChanges qs t u)
    (hps : ps ⊆ rs) (hqs : qs ⊆ rs) : OnlyChanges rs s u := fun p hp =>
  (hst p fun h => hp (hps h)).trans (htu p fun h => hp (hqs h))

/-! ### The frame of each operation -/

theorem State.onlyChanges_jumpTo (s : State) (a : Word) : OnlyChanges [.pc] s (s.jumpTo a) := by
  intro p hp
  cases p with
  | pc => exact absurd (List.mem_singleton_self _) hp
  | _ => rfl

theorem State.onlyChanges_skipIf (s : State) (c : Bool) : OnlyChanges [.pc] s (s.skipIf c) := by
  cases c with
  | false => exact s.onlyChanges_fallThrough
  | true => exact s.onlyChanges_jumpTo (s.pc + 4)

/-- R232: fault entry writes the record alone. -/
theorem State.onlyChanges_raise (s : State) (kind : FaultKind) (op : Option Word) :
    OnlyChanges [.fault] s (s.raise kind op) := by
  intro p hp
  cases p with
  | fault => exact absurd (List.mem_singleton_self _) hp
  | _ => rfl

theorem State.onlyChanges_push (s : State) (ret : Word) :
    OnlyChanges [.sp, .stack (fin16 s.sp.toNat)] s (s.push ret) := by
  intro p hp
  cases p with
  | sp => exact absurd (List.mem_cons_self ..) hp
  | stack j =>
    have hj : j ≠ fin16 s.sp.toNat := by
      rintro rfl
      exact hp (.tail _ (List.mem_singleton_self _))
    exact (s.stackEntry_push ret j).trans (if_neg hj)
  | _ => rfl

/-- R26: a pop leaves the stack entries, the popped one too. -/
theorem State.onlyChanges_pop (s : State) : OnlyChanges [.sp] s s.pop := by
  intro p hp
  cases p with
  | sp => exact absurd (List.mem_singleton_self _) hp
  | _ => rfl

/-! ### Fetch (R101) -/

theorem State.fetch_of_pc_le {s : State} (h : s.pc.toNat ≤ 0xFFE) :
    s.fetch = some (s.mem.read s.pc.toNat ++ s.mem.read (s.pc.toNat + 1)) := if_pos h

theorem State.fetch_of_pc_gt {s : State} (h : s.pc.toNat > 0xFFE) : s.fetch = none := if_neg (Nat.not_le.mpr h)

theorem step_of_fetch_none {s : State} (h : s.Runs) (hf : s.fetch = none) :
    step s = .next (s.raise .memoryOutOfRange none) := by
  rcases step_cases h with ⟨-, hstep⟩ | ⟨op, hop, -⟩ | ⟨op, ins, hop, -⟩
  · exact hstep
  · exact absurd (hf.symm.trans hop) nofun
  · exact absurd (hf.symm.trans hop) nofun

/-- Settles O8: the fetch compares pc with 0xFFE, and the step of a core whose fetch fails is fault entry alone. -/
theorem fetchFaultsAboveTheLastWord : Obligations.FetchFaultsAboveTheLastWord := by
  constructor
  · intro s hruns hpc
    exact ⟨_, step_of_fetch_none hruns (State.fetch_of_pc_gt hpc), s.raise_fault _ _, s.onlyChanges_raise _ _⟩
  · intro s hpc
    exact State.fetch_of_pc_le hpc

/-! ### Jump targets (30_encoding.md R73) -/

@[simp] theorem zextAddr_toNat (nnn : Addr12) : (zextAddr nnn).toNat = nnn.toNat :=
  BitVec.toNat_setWidth_of_le (by decide)

@[simp] theorem zextByte_toNat (b : Byte) : (zextByte b).toNat = b.toNat :=
  BitVec.toNat_setWidth_of_le (by decide)

/-- R107: the sum is at most 0xFFF + 0xFF, so 16 bits hold it. -/
theorem zextAddr_add_zextByte_toNat (nnn : Addr12) (b : Byte) :
    (zextAddr nnn + zextByte b).toNat = nnn.toNat + b.toNat := by
  have hnnn := nnn.isLt
  have hb := b.isLt
  rw [BitVec.toNat_add, zextAddr_toNat, zextByte_toNat]
  omega

/-! ### The jumps -/

theorem exec_jp (nnn : Addr12) (s : State) : exec (.jp nnn) s = .next (s.jumpTo (zextAddr nnn)) := rfl

theorem exec_jpV0 (nnn : Addr12) (s : State) :
    exec (.jpV0 nnn) s = .next (s.jumpTo (zextAddr nnn + zextByte (s.readV 0))) := rfl

/-- Settles O23: JP is a jump to the zero-extended nnn. -/
theorem jpGoesToItsTarget : Obligations.JpGoesToItsTarget := by
  intro nnn s
  exact ⟨_, exec_jp nnn s, zextAddr_toNat nnn, s.onlyChanges_jumpTo _⟩

/-- Settles O24: JP V0 is a jump to a 16-bit sum that does not overflow. -/
theorem jpV0AddsV0 : Obligations.JpV0AddsV0 := by
  intro nnn s
  exact ⟨_, exec_jpV0 nnn s, zextAddr_add_zextByte_toNat nnn (s.readV 0), s.onlyChanges_jumpTo _⟩

/-! ### CALL (R105) -/

theorem exec_call_of_sp_lt (nnn : Addr12) {s : State} (h : s.sp.toNat < 16) :
    exec (.call nnn) s = .next ((s.push (s.pc + 2)).jumpTo (zextAddr nnn)) := by
  rcases execCall_cases nnn s with ⟨hsp, -⟩ | ⟨hsp, -⟩ | ⟨-, hexec⟩
  · omega
  · omega
  · exact hexec

theorem exec_call_of_sp_eq (nnn : Addr12) {s : State} (h : s.sp.toNat = 16) :
    exec (.call nnn) s = .next (s.raise .stackOverflow (some (encode (.call nnn)))) := by
  rcases execCall_cases nnn s with ⟨hsp, -⟩ | ⟨-, hexec⟩ | ⟨hsp, -⟩
  · omega
  · exact hexec
  · omega

theorem State.push_sp_toNat {s : State} (ret : Word) (h : s.sp.toNat < 16) :
    (s.push ret).sp.toNat = s.sp.toNat + 1 :=
  BitVec.toNat_add_of_lt (y := 1) (Nat.lt_of_lt_of_le (Nat.succ_lt_succ h) (by decide))

theorem State.onlyChanges_push_jumpTo (s : State) (ret target : Word) :
    OnlyChanges [.pc, .sp, .stack (fin16 s.sp.toNat)] s ((s.push ret).jumpTo target) :=
  (s.onlyChanges_push ret).trans ((s.push ret).onlyChanges_jumpTo target) (by simp) (by simp)

/-- Settles O25: below 16 entries CALL is a push and a jump, at 16 it is fault entry alone. -/
theorem callPushesTheNextAddress : Obligations.CallPushesTheNextAddress := by
  intro nnn s
  constructor
  · intro hsp
    exact ⟨_, exec_call_of_sp_lt nnn hsp, zextAddr_toNat nnn, State.push_sp_toNat (s.pc + 2) hsp,
      (s.stackEntry_push (s.pc + 2) _).trans (if_pos rfl), s.onlyChanges_push_jumpTo _ _⟩
  · intro hsp
    exact ⟨_, exec_call_of_sp_eq nnn hsp, s.raise_fault _ _, s.onlyChanges_raise _ _⟩

/-! ### RET (R106) -/

theorem exec_ret_of_sp_pos {s : State} (hpos : 0 < s.sp.toNat) (hle : s.sp.toNat ≤ 16) :
    exec .ret s = .next (s.pop.jumpTo s.stackTop) := by
  rcases execRet_cases s with ⟨hsp, -⟩ | ⟨hsp, -⟩ | ⟨-, -, hexec⟩
  · omega
  · omega
  · exact hexec

theorem exec_ret_of_sp_zero {s : State} (h : s.sp.toNat = 0) :
    exec .ret s = .next (s.raise .stackUnderflow (some (encode .ret))) := by
  rcases execRet_cases s with ⟨hsp, -⟩ | ⟨-, hexec⟩ | ⟨hsp, -⟩
  · omega
  · exact hexec
  · omega

theorem State.pop_sp_toNat {s : State} (h : 0 < s.sp.toNat) : s.pop.sp.toNat = s.sp.toNat - 1 :=
  BitVec.toNat_sub_of_le (y := 1) (BitVec.le_def.mpr h)

theorem State.onlyChanges_pop_jumpTo (s : State) (target : Word) :
    OnlyChanges [.pc, .sp] s (s.pop.jumpTo target) :=
  s.onlyChanges_pop.trans (s.pop.onlyChanges_jumpTo target) (by simp) (by simp)

/-- Settles O26: with 1 to 16 entries RET is a pop and a jump to the top entry, with none it is fault entry alone. -/
theorem retPopsTheReturnAddress : Obligations.RetPopsTheReturnAddress := by
  intro s
  constructor
  · intro hpos hle
    exact ⟨_, exec_ret_of_sp_pos hpos hle, State.pop_sp_toNat hpos, rfl, s.onlyChanges_pop_jumpTo _⟩
  · intro hsp
    exact ⟨_, exec_ret_of_sp_zero hsp, s.raise_fault _ _, s.onlyChanges_raise _ _⟩

/-! ### The comparing skips (R108 to R111) -/

theorem exec_seImm (x : Reg) (kk : Byte) (s : State) :
    exec (.seImm x kk) s = .next (s.skipIf (s.readV x == kk)) := rfl

theorem exec_sneImm (x : Reg) (kk : Byte) (s : State) :
    exec (.sneImm x kk) s = .next (s.skipIf (s.readV x != kk)) := rfl

theorem exec_seReg (x y : Reg) (s : State) :
    exec (.seReg x y) s = .next (s.skipIf (s.readV x == s.readV y)) := rfl

theorem exec_sneReg (x y : Reg) (s : State) :
    exec (.sneReg x y) s = .next (s.skipIf (s.readV x != s.readV y)) := rfl

/-- Where a skip on equal bytes goes. -/
theorem State.pc_skipIf_beq (s : State) (a b : Byte) :
    (s.skipIf (a == b)).pc = s.pc + (if a.toNat = b.toNat then 4 else 2) := by
  rw [State.skipIf_pc]
  by_cases h : a = b
  · simp [h]
  · simp [h, BitVec.toNat_inj]

/-- Where a skip on different bytes goes. -/
theorem State.pc_skipIf_bne (s : State) (a b : Byte) :
    (s.skipIf (a != b)).pc = s.pc + (if a.toNat = b.toNat then 2 else 4) := by
  rw [State.skipIf_pc]
  by_cases h : a = b
  · simp [h]
  · simp [h, BitVec.toNat_inj]

/-- Settles O28: each of the four is `skipIf` with its comparison. -/
theorem skipsCompare : Obligations.SkipsCompare := by
  intro x y kk s
  refine ⟨?_, ?_, ?_, ?_⟩
  · exact ⟨_, exec_seImm x kk s, s.onlyChanges_skipIf _, s.pc_skipIf_beq _ _⟩
  · exact ⟨_, exec_sneImm x kk s, s.onlyChanges_skipIf _, s.pc_skipIf_bne _ _⟩
  · exact ⟨_, exec_seReg x y s, s.onlyChanges_skipIf _, s.pc_skipIf_beq _ _⟩
  · exact ⟨_, exec_sneReg x y s, s.onlyChanges_skipIf _, s.pc_skipIf_bne _ _⟩

end Sys2Proof.Machine
end

section
/-! Register loads and the 8-bit ALU (41_alu.md): the frame of a write to V[x], alone or with the flag written last, the
values of the flags and of wrapping arithmetic as numbers, and what the loads, the logic, the sums, the differences and
the shifts do. -/

namespace Sys2Proof.Machine

/-! ### A write to V[x], and the pc increment -/

theorem State.readV_writeV_self (s : State) (x : Reg) (b : Byte) : (s.writeV x b).readV x = b :=
  (s.readV_writeV x x b).trans (if_pos rfl)

theorem State.onlyChanges_writeV (s : State) (x : Reg) (b : Byte) : OnlyChanges [.v x] s (s.writeV x b) := by
  intro p hp
  cases p with
  | v y =>
    have hy : y ≠ x := by
      rintro rfl
      exact hp (List.mem_singleton_self _)
    exact (s.readV_writeV x y b).trans (if_neg hy)
  | _ => rfl

theorem State.onlyChanges_writeV_fallThrough (s : State) (x : Reg) (b : Byte) :
    OnlyChanges [.v x, .pc] s (s.writeV x b).fallThrough :=
  (s.onlyChanges_writeV x b).trans (s.writeV x b).onlyChanges_fallThrough (by simp) (by simp)

/-! ### The loads, ADD Vx,kk and the logic (R130 to R135) -/

theorem exec_ldImm (x : Reg) (kk : Byte) (s : State) :
    exec (.ldImm x kk) s = .next (s.writeV x kk).fallThrough := rfl

theorem exec_ldReg (x y : Reg) (s : State) :
    exec (.ldReg x y) s = .next (s.writeV x (s.readV y)).fallThrough := rfl

theorem exec_addImm (x : Reg) (kk : Byte) (s : State) :
    exec (.addImm x kk) s = .next (s.writeV x (s.readV x + kk)).fallThrough := rfl

theorem exec_orReg (x y : Reg) (s : State) :
    exec (.orReg x y) s = .next (s.writeV x (s.readV x ||| s.readV y)).fallThrough := rfl

theorem exec_andReg (x y : Reg) (s : State) :
    exec (.andReg x y) s = .next (s.writeV x (s.readV x &&& s.readV y)).fallThrough := rfl

theorem exec_xorReg (x y : Reg) (s : State) :
    exec (.xorReg x y) s = .next (s.writeV x (s.readV x ^^^ s.readV y)).fallThrough := rfl

/-- Settles O29: each of the three is one write to V[x] and the pc increment. -/
theorem loadsAndAddImmediate : Obligations.LoadsAndAddImmediate := by
  intro x y kk s
  refine ⟨?_, ?_, ?_⟩
  · exact ⟨_, exec_ldImm x kk s, s.readV_writeV_self x _, rfl, s.onlyChanges_writeV_fallThrough x _⟩
  · exact ⟨_, exec_ldReg x y s, s.readV_writeV_self x _, rfl, s.onlyChanges_writeV_fallThrough x _⟩
  · refine ⟨_, exec_addImm x kk s, ?_, rfl, s.onlyChanges_writeV_fallThrough x _⟩
    rw [State.readV_fallThrough, State.readV_writeV_self, BitVec.toNat_add]

/-- Settles O30: each of the three is one write to V[x], whose bits the library gives, and the pc increment. -/
theorem logicIsBitwise : Obligations.LogicIsBitwise := by
  intro x y s
  refine ⟨?_, ?_, ?_⟩
  · refine ⟨_, exec_orReg x y s, rfl, s.onlyChanges_writeV_fallThrough x _, fun k => ?_⟩
    rw [State.readV_fallThrough, State.readV_writeV_self, BitVec.getLsbD_or]
  · refine ⟨_, exec_andReg x y s, rfl, s.onlyChanges_writeV_fallThrough x _, fun k => ?_⟩
    rw [State.readV_fallThrough, State.readV_writeV_self, BitVec.getLsbD_and]
  · refine ⟨_, exec_xorReg x y s, rfl, s.onlyChanges_writeV_fallThrough x _, fun k => ?_⟩
    rw [State.readV_fallThrough, State.readV_writeV_self, BitVec.getLsbD_xor]

/-! ### A write to V[x], then the flag to VF (R140) -/

theorem State.readV_writeWithFlag_vF (s : State) (x : Reg) (b : Byte) (f : Bool) :
    (s.writeWithFlag x b f).readV vF = flagByte f :=
  (s.writeV x b).readV_writeV_self vF (flagByte f)

theorem State.readV_writeWithFlag_self (s : State) {x : Reg} (h : x ≠ vF) (b : Byte) (f : Bool) :
    (s.writeWithFlag x b f).readV x = b := by
  rw [State.writeWithFlag, State.readV_writeV, if_neg h, State.readV_writeV_self]

theorem State.onlyChanges_writeWithFlag (s : State) (x : Reg) (b : Byte) (f : Bool) :
    OnlyChanges [.v x, .v vF] s (s.writeWithFlag x b f) :=
  (s.onlyChanges_writeV x b).trans ((s.writeV x b).onlyChanges_writeV vF _) (by simp) (by simp)

/-- Everything a flag-writing ALU instruction does with its result and its flag. -/
theorem State.loadVFlag_spec (s : State) (x : Reg) (b : Byte) (f : Bool) :
    ∃ t, s.loadVFlag x b f = .next t ∧ (x ≠ vF → t.readV x = b) ∧ t.readV vF = flagByte f ∧
      t.pc = s.pc + 2 ∧ OnlyChanges [.v x, .v vF, .pc] s t :=
  ⟨_, rfl, fun h => s.readV_writeWithFlag_self h b f, s.readV_writeWithFlag_vF x b f, rfl,
    (s.onlyChanges_writeWithFlag x b f).trans (State.onlyChanges_fallThrough _) (by simp) (by simp)⟩

/-! ### The flags as numbers -/

theorem flagByte_toNat (f : Bool) : (flagByte f).toNat = f.toNat := by cases f <;> rfl

theorem flagByte_carry_toNat (a b : Byte) :
    (flagByte (carry a b)).toNat = if a.toNat + b.toNat > 255 then 1 else 0 := by
  rw [flagByte_toNat, carry, Bool.toNat, Bool.cond_decide]

theorem flagByte_notBorrow_toNat (a b : Byte) :
    (flagByte (notBorrow a b)).toNat = if a.toNat ≥ b.toNat then 1 else 0 := by
  rw [flagByte_toNat, notBorrow, Bool.toNat, Bool.cond_decide]

theorem flagByte_shiftedOutRight_toNat (a : Byte) : (flagByte (shiftedOutRight a)).toNat = a.toNat % 2 := by
  rw [flagByte_toNat, shiftedOutRight, BitVec.getLsbD, Nat.toNat_testBit, Nat.pow_zero, Nat.div_one]

theorem flagByte_shiftedOutLeft_toNat (a : Byte) : (flagByte (shiftedOutLeft a)).toNat = a.toNat / 128 := by
  have ha := a.isLt
  rw [flagByte_toNat, shiftedOutLeft, BitVec.getLsbD, Nat.toNat_testBit]
  omega

/-! ### Wrapping results as numbers (R139) -/

theorem byte_sub_toNat (a b : Byte) : ((a - b).toNat : Int) = (a.toNat - b.toNat : Int) % 256 := by
  have hb := b.isLt
  rw [BitVec.toNat_sub]
  omega

theorem byte_shiftRight_one_toNat (a : Byte) : (a >>> 1).toNat = a.toNat / 2 := by
  rw [BitVec.toNat_ushiftRight, Nat.shiftRight_one]

theorem byte_shiftLeft_one_toNat (a : Byte) : (a <<< 1).toNat = a.toNat * 2 % 256 := by
  rw [BitVec.toNat_shiftLeft, Nat.shiftLeft_eq, Nat.pow_one]

/-! ### Sum, differences and shifts (R136 to R145) -/

theorem exec_addReg (x y : Reg) (s : State) :
    exec (.addReg x y) s = s.loadVFlag x (s.readV x + s.readV y) (carry (s.readV x) (s.readV y)) := rfl

theorem exec_subReg (x y : Reg) (s : State) :
    exec (.subReg x y) s = s.loadVFlag x (s.readV x - s.readV y) (notBorrow (s.readV x) (s.readV y)) := rfl

theorem exec_subnReg (x y : Reg) (s : State) :
    exec (.subnReg x y) s = s.loadVFlag x (s.readV y - s.readV x) (notBorrow (s.readV y) (s.readV x)) := rfl

theorem exec_shr (x y : Reg) (s : State) :
    exec (.shr x y) s = s.loadVFlag x (s.readV x >>> 1) (shiftedOutRight (s.readV x)) := rfl

theorem exec_shl (x y : Reg) (s : State) :
    exec (.shl x y) s = s.loadVFlag x (s.readV x <<< 1) (shiftedOutLeft (s.readV x)) := rfl

/-- Settles O31: ADD writes the wrapped sum, then the carry. -/
theorem addGivesSumAndCarry : Obligations.AddGivesSumAndCarry := by
  intro x y s
  obtain ⟨t, hexec, hres, hflag, hpc, hframe⟩ :=
    s.loadVFlag_spec x (s.readV x + s.readV y) (carry (s.readV x) (s.readV y))
  refine ⟨t, (exec_addReg x y s).trans hexec, fun hx => ?_, ?_, hpc, hframe⟩
  · rw [hres hx, BitVec.toNat_add]
  · rw [hflag, flagByte_carry_toNat]

/-- What SUB and SUBN share: the difference of a minuend and a subtrahend, then NOT-borrow. -/
theorem State.loadVFlag_difference (s : State) (x : Reg) (a b : Byte) :
    ∃ t, s.loadVFlag x (a - b) (notBorrow a b) = .next t ∧
      (x ≠ vF → ((t.readV x).toNat : Int) = (a.toNat - b.toNat : Int) % 256) ∧
      (t.readV vF).toNat = (if a.toNat ≥ b.toNat then 1 else 0) ∧
      t.pc = s.pc + 2 ∧ OnlyChanges [.v x, .v vF, .pc] s t := by
  obtain ⟨t, hexec, hres, hflag, hpc, hframe⟩ := s.loadVFlag_spec x (a - b) (notBorrow a b)
  refine ⟨t, hexec, fun hx => ?_, ?_, hpc, hframe⟩
  · rw [hres hx, byte_sub_toNat]
  · rw [hflag, flagByte_notBorrow_toNat]

/-- Settles O32: SUB takes V[x] as the minuend, SUBN takes V[y]. -/
theorem subtractionsGiveDifferenceAndNotBorrow : Obligations.SubtractionsGiveDifferenceAndNotBorrow := by
  intro x y s
  rw [exec_subReg, exec_subnReg]
  exact ⟨s.loadVFlag_difference x (s.readV x) (s.readV y), s.loadVFlag_difference x (s.readV y) (s.readV x)⟩

/-- Settles O33: each shift writes V[x] shifted, then the bit shifted out; neither depends on the field y. -/
theorem shiftsGiveTheBitShiftedOut : Obligations.ShiftsGiveTheBitShiftedOut := by
  intro x y s
  constructor
  · obtain ⟨t, hexec, hres, hflag, hpc, hframe⟩ :=
      s.loadVFlag_spec x (s.readV x >>> 1) (shiftedOutRight (s.readV x))
    have hshr : ∀ z, exec (.shr x z) s = .next t := fun z => (exec_shr x z s).trans hexec
    refine ⟨t, hshr y, fun hx => ?_, ?_, hpc, hframe, hshr⟩
    · rw [hres hx, byte_shiftRight_one_toNat]
    · rw [hflag, flagByte_shiftedOutRight_toNat]
  · obtain ⟨t, hexec, hres, hflag, hpc, hframe⟩ :=
      s.loadVFlag_spec x (s.readV x <<< 1) (shiftedOutLeft (s.readV x))
    have hshl : ∀ z, exec (.shl x z) s = .next t := fun z => (exec_shl x z s).trans hexec
    refine ⟨t, hshl y, fun hx => ?_, ?_, hpc, hframe, hshl⟩
    · rw [hres hx, byte_shiftLeft_one_toNat]
    · rw [hflag, flagByte_shiftedOutLeft_toNat]

end Sys2Proof.Machine
end

section
/-! The address register and the memory instructions (42_index_memory.md): the frame of a write to I, of a block stored
from I and of a block loaded into V0 to Vx, the values of the addresses and of the decimal digits, and what the loads of
I, Fx33, Fx55 and Fx65 do inside and outside the address space. -/

namespace Sys2Proof.Machine

/-! ### The address register (R160 to R162) -/

theorem State.onlyChanges_setI (s : State) (a : Word) : OnlyChanges [.i] s (s.setI a) := by
  intro p hp
  cases p with
  | i => exact absurd (List.mem_singleton_self _) hp
  | _ => rfl

theorem State.onlyChanges_setI_fallThrough (s : State) (a : Word) : OnlyChanges [.i, .pc] s (s.setI a).fallThrough :=
  (s.onlyChanges_setI a).trans (s.setI a).onlyChanges_fallThrough (by simp) (by simp)

/-- R162: five times a byte is at most 1275, so 16 bits hold it. -/
theorem glyphAddr_toNat (digit : Byte) : (glyphAddr digit).toNat = digit.toNat * 5 := by
  have hfive : (5 : Word).toNat = 5 := rfl
  have hdigit := digit.isLt
  rw [glyphAddr, BitVec.toNat_mul, zextByte_toNat, hfive]
  omega

theorem exec_ldI (nnn : Addr12) (s : State) : exec (.ldI nnn) s = .next (s.setI (zextAddr nnn)).fallThrough := rfl

theorem exec_addIVx (x : Reg) (s : State) :
    exec (.addIVx x) s = .next (s.setI (s.i + zextByte (s.readV x))).fallThrough := rfl

theorem exec_ldFVx (x : Reg) (s : State) : exec (.ldFVx x) s = .next (s.setI (glyphAddr (s.readV x))).fallThrough := rfl

/-- Settles O35: each of the three is one write to I and the pc increment. -/
theorem addressRegisterInstructions : Obligations.AddressRegisterInstructions := by
  intro x nnn s
  refine ⟨?_, ?_, ?_⟩
  · exact ⟨_, exec_ldI nnn s, zextAddr_toNat nnn, rfl, s.onlyChanges_setI_fallThrough _⟩
  · refine ⟨_, exec_addIVx x s, ?_, rfl, s.onlyChanges_setI_fallThrough _⟩
    rw [State.fallThrough_i, State.setI_i, BitVec.toNat_add, zextByte_toNat]
  · exact ⟨_, exec_ldFVx x s, glyphAddr_toNat (s.readV x), rfl, s.onlyChanges_setI_fallThrough _⟩

/-! ### The range check of a block that is not empty (20_memory.md R52) -/

/-- The last address of the block decides. -/
theorem accessInRange_succ_iff {base n : Nat} : accessInRange base (n + 1) = true ↔ base + n ≤ 0xFFF := by
  rw [accessInRange_iff, memSize]
  omega

/-! ### A block stored from I -/

theorem mem_memParts_iff {base n a : Nat} : Part.mem a ∈ memParts base n ↔ base ≤ a ∧ a < base + n := by
  simp only [memParts, List.mem_map, List.mem_range, Part.mem.injEq]
  constructor
  · rintro ⟨k, hk, rfl⟩
    omega
  · rintro ⟨hle, hlt⟩
    exact ⟨a - base, by omega, by omega⟩

theorem State.onlyChanges_writeBlock (s : State) (base : Nat) (bs : List Byte) :
    OnlyChanges (memParts base bs.length) s { s with mem := s.mem.writeBlock base bs } := by
  intro p hp
  cases p with
  | mem a => exact (s.mem.read_writeBlock base bs a).trans (if_neg (mt mem_memParts_iff.mpr hp))
  | _ => rfl

theorem Memory.read_writeBlock_add (m : Memory) (base : Nat) {bs : List Byte} {k : Nat} (h : k < bs.length) :
    (m.writeBlock base bs).read (base + k) = bs.getD k 0 := by
  rw [Memory.read_writeBlock, if_pos (by omega), Nat.add_sub_cancel_left]

/-- What Fx33 and Fx55 share when the last address `I + n` is in range. -/
theorem State.storeAtI_of_le {s : State} {bs : List Byte} {n : Nat} (ins : Instr) (hlen : bs.length = n + 1)
    (h : s.i.toNat + n ≤ 0xFFF) :
    ∃ t, s.storeAtI ins bs = .next t ∧ (∀ k, k ≤ n → t.mem.read (s.i.toNat + k) = bs.getD k 0) ∧
      t.pc = s.pc + 2 ∧ OnlyChanges (.pc :: memParts s.memBase (n + 1)) s t := by
  rcases s.storeAtI_cases ins bs with ⟨-, hexec⟩ | ⟨hout, -⟩
  · refine ⟨_, hexec, fun k hk => s.mem.read_writeBlock_add s.memBase (by omega), rfl, ?_⟩
    rw [← hlen]
    exact (s.onlyChanges_writeBlock s.memBase bs).trans (State.onlyChanges_fallThrough _)
      (List.subset_cons_self _ _) (by simp)
  · rw [hlen] at hout
    exact absurd (accessInRange_succ_iff.mpr h) (ne_true_of_eq_false hout)

/-- What Fx33 and Fx55 share when the last address `I + n` is out of range. -/
theorem State.storeAtI_of_gt {s : State} {bs : List Byte} {n : Nat} (ins : Instr) (hlen : bs.length = n + 1)
    (h : s.i.toNat + n > 0xFFF) :
    s.storeAtI ins bs = .next (s.raise .memoryOutOfRange (some (encode ins))) := by
  rcases s.storeAtI_cases ins bs with ⟨hin, -⟩ | ⟨-, hexec⟩
  · rw [hlen] at hin
    exact absurd (accessInRange_succ_iff.mp hin) (Nat.not_le.mpr h)
  · exact hexec

/-! ### LD B,Vx (R163) -/

theorem byte_ofNat_toNat {n : Nat} (h : n < 256) : (BitVec.ofNat 8 n).toNat = n :=
  (BitVec.toNat_ofNat n 8).trans (Nat.mod_eq_of_lt h)

theorem bcdDigits_hundreds (b : Byte) : ((bcdDigits b).getD 0 0).toNat = b.toNat / 100 :=
  byte_ofNat_toNat (by have := b.isLt; omega)

theorem bcdDigits_tens (b : Byte) : ((bcdDigits b).getD 1 0).toNat = b.toNat / 10 % 10 :=
  byte_ofNat_toNat (by omega)

theorem bcdDigits_units (b : Byte) : ((bcdDigits b).getD 2 0).toNat = b.toNat % 10 :=
  byte_ofNat_toNat (by omega)

theorem exec_ldBVx (x : Reg) (s : State) :
    exec (.ldBVx x) s = s.storeAtI (.ldBVx x) (bcdDigits (s.readV x)) := rfl

/-- Settles O36: Fx33 is the three digits stored from I, or fault entry alone. -/
theorem bcdStoresTheDecimalDigits : Obligations.BcdStoresTheDecimalDigits := by
  intro x s
  have hlen : (bcdDigits (s.readV x)).length = 2 + 1 := rfl
  rw [exec_ldBVx]
  constructor
  · intro hin
    obtain ⟨t, hexec, hread, hpc, hframe⟩ := State.storeAtI_of_le (.ldBVx x) hlen hin
    refine ⟨t, hexec, ?_, ?_, ?_, hpc, hframe⟩
    · exact (congrArg _ (hread 0 (by decide))).trans (bcdDigits_hundreds _)
    · exact (congrArg _ (hread 1 (by decide))).trans (bcdDigits_tens _)
    · exact (congrArg _ (hread 2 (by decide))).trans (bcdDigits_units _)
  · intro hout
    exact ⟨_, State.storeAtI_of_gt (.ldBVx x) hlen hout, s.raise_fault _ _, s.onlyChanges_raise _ _⟩

/-! ### LD [I],Vx (R164) -/

theorem exec_ldMemVx (x : Reg) (s : State) : exec (.ldMemVx x) s = s.storeAtI (.ldMemVx x) (s.readVs x) := rfl

/-- Settles O37: Fx55 is V0 to Vx stored from I, or fault entry alone. -/
theorem blockStoreStoresV0ToVx : Obligations.BlockStoreStoresV0ToVx := by
  intro x s
  rw [exec_ldMemVx]
  constructor
  · intro hin
    obtain ⟨t, hexec, hread, hpc, hframe⟩ := State.storeAtI_of_le (.ldMemVx x) (s.readVs_length x) hin
    refine ⟨t, hexec, fun r hr => ?_, hpc, hframe⟩
    rw [hread r.val hr, s.readVs_getD x hr, fin16_val]
  · intro hout
    exact ⟨_, State.storeAtI_of_gt (.ldMemVx x) (s.readVs_length x) hout, s.raise_fault _ _,
      s.onlyChanges_raise _ _⟩

/-! ### LD Vx,[I] (R165) -/

/-- The frame of a run of register writes, for every list of parts that holds those registers. -/
theorem State.onlyChanges_writeVs {ps : List Part} (s : State) (k : Nat) (bs : List Byte)
    (h : ∀ j, k ≤ j → j < k + bs.length → Part.v (fin16 j) ∈ ps) : OnlyChanges ps s (s.writeVs k bs) := by
  induction bs generalizing s k with
  | nil =>
    intro p _
    cases p <;> rfl
  | cons b rest ih =>
    rw [List.length_cons] at h
    have hhead : [Part.v (fin16 k)] ⊆ ps := by simpa using h k (by omega) (by omega)
    have hrest := ih (s.writeV (fin16 k) b) (k + 1) fun j hle hlt => h j (by omega) (by omega)
    exact (s.onlyChanges_writeV _ b).trans hrest hhead (List.Subset.refl ps)

theorem mem_regParts_of_le {x : Reg} {k : Nat} (h : k ≤ x.val) : Part.v (fin16 k) ∈ regParts x :=
  List.mem_map_of_mem (List.mem_range.mpr (Nat.lt_succ_of_le h))

/-- The state a block load in range leaves. -/
def State.blockLoaded (s : State) (x : Reg) : State :=
  (s.writeVs 0 (s.mem.readBlock s.memBase (x.val + 1))).fallThrough

theorem State.readV_blockLoaded (s : State) {x r : Reg} (h : r ≤ x) :
    (s.blockLoaded x).readV r = s.mem.read (s.i.toNat + r.val) := by
  have hr : r.val < x.val + 1 := Nat.lt_succ_of_le h
  have hx := x.isLt
  rw [blockLoaded, State.readV_fallThrough, State.readV_writeVs, Memory.readBlock_length, if_pos (by omega),
    Nat.sub_zero, Memory.readBlock_getD _ _ _ hr, memBase]
  rw [Memory.readBlock_length]
  omega

theorem State.blockLoaded_pc (s : State) (x : Reg) : (s.blockLoaded x).pc = s.pc + 2 := by
  rw [blockLoaded, State.fallThrough_pc, State.writeVs_pc]

theorem State.onlyChanges_blockLoaded (s : State) (x : Reg) : OnlyChanges (.pc :: regParts x) s (s.blockLoaded x) := by
  have hregs : OnlyChanges (regParts x) s (s.writeVs 0 (s.mem.readBlock s.memBase (x.val + 1))) :=
    s.onlyChanges_writeVs 0 _ fun j _ hlt => mem_regParts_of_le (by rw [Memory.readBlock_length] at hlt; omega)
  exact hregs.trans (State.onlyChanges_fallThrough _) (List.subset_cons_self _ _) (by simp)

theorem exec_ldVxMem_of_le {x : Reg} {s : State} (h : s.i.toNat + x.val ≤ 0xFFF) :
    exec (.ldVxMem x) s = .next (s.blockLoaded x) := by
  rcases execLdVxMem_cases x s with ⟨-, hexec⟩ | ⟨hout, -⟩
  · exact hexec
  · exact absurd (accessInRange_succ_iff.mpr h) (ne_true_of_eq_false hout)

theorem exec_ldVxMem_of_gt {x : Reg} {s : State} (h : s.i.toNat + x.val > 0xFFF) :
    exec (.ldVxMem x) s = .next (s.raise .memoryOutOfRange (some (encode (.ldVxMem x)))) := by
  rcases execLdVxMem_cases x s with ⟨hin, -⟩ | ⟨-, hexec⟩
  · exact absurd (accessInRange_succ_iff.mp hin) (Nat.not_le.mpr h)
  · exact hexec

/-- Settles O38: Fx65 is the block at I loaded into V0 to Vx, or fault entry alone. -/
theorem blockLoadLoadsV0ToVx : Obligations.BlockLoadLoadsV0ToVx := by
  intro x s
  constructor
  · intro hin
    exact ⟨_, exec_ldVxMem_of_le hin, fun r hr => s.readV_blockLoaded hr, s.blockLoaded_pc x,
      s.onlyChanges_blockLoaded x⟩
  · intro hout
    exact ⟨_, exec_ldVxMem_of_gt hout, s.raise_fault _ _, s.onlyChanges_raise _ _⟩

end Sys2Proof.Machine
end

section
/-! The display (43_display.md): the toggle of one cell, the frame of a write to the display, what CLS does, and what Dxyn
does inside and outside the address space. -/

namespace Sys2Proof.Machine

/-! ### One toggle (R181) -/

theorem eq_columnOf_iff {x : Fin 64} {cx : Nat} : x = columnOf cx ↔ x.val = cx % 64 := Fin.ext_iff

theorem eq_rowOf_iff {y : Fin 32} {cy : Nat} : y = rowOf cy ↔ y.val = cy % 32 := Fin.ext_iff

theorem Display.lit_toggle (d : Display) (cx cy : Nat) (x : Fin 64) (y : Fin 32) :
    (d.toggle cx cy).1.lit x y = if x = columnOf cx ∧ y = rowOf cy then !d.lit x y else d.lit x y := by
  rw [Display.toggle, Display.lit_put]
  split
  next hcell => rw [hcell.1, hcell.2]
  next => rfl

/-- Settles O41: a toggle is one `put` of the inverted cell at the wrapped coordinates. -/
theorem toggleWrapsAndInverts : Obligations.ToggleWrapsAndInverts := by
  intro d cx cy x y
  simp only [← eq_columnOf_iff, ← eq_rowOf_iff]
  refine ⟨d.lit_toggle cx cy x y, ?_⟩
  rintro rfl rfl
  rfl

/-! ### A write to the display -/

theorem State.same_withDisp (s : State) (d : Display) {p : Part} (h : ∀ x y, p ≠ .pixel x y) :
    p.same s { s with disp := d } := by
  cases p with
  | pixel x y => exact absurd rfl (h x y)
  | _ => rfl

/-! ### CLS (R180) -/

theorem exec_cls (s : State) : exec .cls s = .next (State.fallThrough { s with disp := Display.clear }) := rfl

/-- Settles O42: CLS is one write of the cleared display and the pc increment. -/
theorem clsClearsEveryCell : Obligations.ClsClearsEveryCell := by
  intro s
  refine ⟨_, exec_cls s, Display.lit_clear, rfl, fun p hpc hpixel => ?_⟩
  exact (s.same_withDisp _ hpixel).trans (State.onlyChanges_fallThrough _ p (mt List.mem_singleton.mp hpc))

/-! ### The cells and the collision of a sprite (R182) -/

theorem State.lit_drawn (s : State) (x y : Reg) (n : Nibble) (cx : Fin 64) (cy : Fin 32) :
    (s.drawn x y n).1.lit cx cy =
      (s.disp.lit cx cy ^^ decide ((cx, cy) ∈
        spriteCells (s.readV x).toNat (s.readV y).toNat (s.mem.readBlock s.memBase n.toNat))) :=
  lit_drawRows _ _ _ (s.mem.readBlock_length_le s.memBase n) _ cx cy

theorem State.lit_drawn_of_underSprite {s : State} {x y : Reg} {n : Nibble} {cx : Fin 64} {cy : Fin 32}
    (h : s.UnderSprite x y n cx cy) : (s.drawn x y n).1.lit cx cy = !s.disp.lit cx cy := by
  rw [s.lit_drawn, decide_eq_true ((s.mem_cells_iff x y n cx cy).mpr h), Bool.xor_true]

theorem State.lit_drawn_of_not_underSprite {s : State} {x y : Reg} {n : Nibble} {cx : Fin 64} {cy : Fin 32}
    (h : ¬ s.UnderSprite x y n cx cy) : (s.drawn x y n).1.lit cx cy = s.disp.lit cx cy := by
  rw [s.lit_drawn, decide_eq_false (mt (s.mem_cells_iff x y n cx cy).mp h), Bool.xor_false]

theorem State.collided_drawn_iff (s : State) (x y : Reg) (n : Nibble) :
    (s.drawn x y n).2 = true ↔ ∃ cx cy, s.UnderSprite x y n cx cy ∧ s.disp.lit cx cy = true := by
  rw [State.drawn, collided_drawRows _ _ _ (s.mem.readBlock_length_le s.memBase n), Bool.false_or, List.any_eq_true,
    Prod.exists]
  simp only [s.mem_cells_iff]

/-! ### DRW (R182, R186) -/

theorem flagByte_eq_one_iff {f : Bool} : flagByte f = 1 ↔ f = true := by cases f <;> decide

theorem flagByte_eq_zero_or_one (f : Bool) : flagByte f = 0 ∨ flagByte f = 1 := by
  cases f with
  | false => exact .inl rfl
  | true => exact .inr rfl

/-- The state a Dxyn in range leaves. -/
def State.spriteDrawn (s : State) (x y : Reg) (n : Nibble) : State :=
  (State.writeV { s with disp := (s.drawn x y n).1 } vF (flagByte (s.drawn x y n).2)).fallThrough

theorem State.spriteDrawn_disp (s : State) (x y : Reg) (n : Nibble) :
    (s.spriteDrawn x y n).disp = (s.drawn x y n).1 := rfl

theorem State.readV_vF_spriteDrawn (s : State) (x y : Reg) (n : Nibble) :
    (s.spriteDrawn x y n).readV vF = flagByte (s.drawn x y n).2 :=
  State.readV_writeV_self _ vF _

theorem State.same_spriteDrawn (s : State) (x y : Reg) (n : Nibble) {p : Part} (hpc : p ≠ .pc) (hvF : p ≠ .v vF)
    (hpixel : ∀ cx cy, p ≠ .pixel cx cy) : p.same s (s.spriteDrawn x y n) :=
  (s.same_withDisp _ hpixel).trans (State.onlyChanges_writeV_fallThrough _ vF _ p (by simp [hpc, hvF]))

/-- The sprite is empty, or its last byte decides. -/
theorem accessInRange_nibble_iff {base : Nat} {n : Nibble} :
    accessInRange base n.toNat = true ↔ n = 0 ∨ base + n.toNat - 1 ≤ 0xFFF := by
  rw [accessInRange_iff, memSize, ← BitVec.toNat_inj]
  change n.toNat = 0 ∨ _ ↔ n.toNat = 0 ∨ _
  omega

theorem exec_drw_of_inRange {x y : Reg} {n : Nibble} {s : State} (h : n = 0 ∨ s.i.toNat + n.toNat - 1 ≤ 0xFFF) :
    exec (.drw x y n) s = .next (s.spriteDrawn x y n) := by
  rcases execDrw_cases x y n s with ⟨-, hexec⟩ | ⟨hout, -⟩
  · exact hexec
  · exact absurd (accessInRange_nibble_iff.mpr h) (ne_true_of_eq_false hout)

theorem exec_drw_of_outOfRange {x y : Reg} {n : Nibble} {s : State} (hn : n ≠ 0)
    (h : s.i.toNat + n.toNat - 1 > 0xFFF) :
    exec (.drw x y n) s = .next (s.raise .memoryOutOfRange (some (encode (.drw x y n)))) := by
  rcases execDrw_cases x y n s with ⟨hin, -⟩ | ⟨-, hexec⟩
  · exact absurd (accessInRange_nibble_iff.mp hin) (not_or.mpr ⟨hn, Nat.not_le.mpr h⟩)
  · exact hexec

/-- Settles O43: Dxyn is the sprite's cells toggled and the collision written to VF, or fault entry alone. -/
theorem drawInvertsTheCellsUnderTheSprite : Obligations.DrawInvertsTheCellsUnderTheSprite := by
  intro x y n s
  constructor
  · intro hin
    refine ⟨_, exec_drw_of_inRange hin, ?_, ?_, ?_, ?_, rfl, fun p => s.same_spriteDrawn x y n⟩
    · exact fun cx cy => State.lit_drawn_of_underSprite
    · exact fun cx cy => State.lit_drawn_of_not_underSprite
    · rw [s.readV_vF_spriteDrawn]
      exact flagByte_eq_zero_or_one _
    · rw [s.readV_vF_spriteDrawn, flagByte_eq_one_iff, s.collided_drawn_iff]
  · intro hn hout
    exact ⟨_, exec_drw_of_outOfRange hn hout, s.raise_fault _ _, s.onlyChanges_raise _ _⟩

end Sys2Proof.Machine
end

section
/-! Keys and timers (44_keyboard_timers.md): the frame of a write to one key, to `wait` and to a timer, what a key event
does with and without a capture pending, and what SKP, SKNP, the key wait and the timer instructions do. -/

namespace Sys2Proof.Machine

/-! ### One key (R200, R203) -/

theorem State.keyDown?_setKey (s : State) (k j : Key) (b : Bool) :
    (s.setKey k b).keyDown? j = if j = k then b else s.keyDown? j := by
  simp only [State.keyDown?, State.setKey_keys, Fin.getElem_fin, Vector.getElem_set, Fin.val_inj, eq_comm (a := j)]

theorem State.keyDown?_setKey_self (s : State) (k : Key) (b : Bool) : (s.setKey k b).keyDown? k = b :=
  (s.keyDown?_setKey k k b).trans (if_pos rfl)

theorem State.onlyChanges_setKey (s : State) (k : Key) (b : Bool) : OnlyChanges [.key k] s (s.setKey k b) := by
  intro p hp
  cases p with
  | key j =>
    have hj : j ≠ k := by
      rintro rfl
      exact hp (List.mem_singleton_self _)
    exact (s.keyDown?_setKey k j b).trans (if_neg hj)
  | _ => rfl

/-! ### A write to `wait` -/

theorem State.onlyChanges_withWait (s : State) (w : Option Reg) : OnlyChanges [.wait] s { s with wait := w } := by
  intro p hp
  cases p with
  | wait => exact absurd (List.mem_singleton_self _) hp
  | _ => rfl

/-! ### Key events (R200 to R203) -/

/-- R202: a key's number is at most 15, so a byte holds it. -/
theorem keyByte_toNat (k : Key) : (keyByte k).toNat = k.val :=
  byte_ofNat_toNat (Nat.lt_trans k.isLt (by decide))

/-- The state a completed capture leaves (R202). -/
def State.captured (s : State) (x : Reg) (k : Key) : State :=
  { (s.writeV x (keyByte k)).fallThrough with wait := none }

theorem State.keyDown?_captured (s : State) (x : Reg) (k j : Key) : (s.captured x k).keyDown? j = s.keyDown? j := rfl

theorem State.readV_captured_self (s : State) (x : Reg) (k : Key) : (s.captured x k).readV x = keyByte k :=
  s.readV_writeV_self x (keyByte k)

theorem State.captured_pc (s : State) (x : Reg) (k : Key) : (s.captured x k).pc = s.pc + 2 := rfl

theorem State.captured_wait (s : State) (x : Reg) (k : Key) : (s.captured x k).wait = none := rfl

theorem State.onlyChanges_captured (s : State) (x : Reg) (k : Key) :
    OnlyChanges [.v x, .pc, .wait] s (s.captured x k) :=
  (s.onlyChanges_writeV_fallThrough x _).trans (State.onlyChanges_withWait _ none) (by simp) (by simp)

theorem State.onKeyTransition_of_capture {s : State} {x : Reg} (k : Key) (hwait : s.wait = some x)
    (hpaused : s.paused = false) (hfault : s.fault = none) : s.onKeyTransition k = s.captured x k := by
  simp [State.onKeyTransition, State.captured, hwait, hpaused, hfault]

theorem State.onKeyTransition_of_no_capture {s : State} (k : Key)
    (h : s.wait = none ∨ s.paused = true ∨ s.fault ≠ none) : s.onKeyTransition k = s := by
  unfold State.onKeyTransition
  split
  next => rfl
  next x hwait =>
    refine if_pos ?_
    rcases h with hnone | hpaused | hfault
    · exact absurd (hwait.symm.trans hnone) nofun
    · rw [hpaused, Bool.true_or]
    · rw [Option.isSome_iff_ne_none.mpr hfault, Bool.or_true]

/-- R201, R202: an up-to-down change of a key, with a capture pending. -/
theorem State.keyDown_of_capture {s : State} {x : Reg} {k : Key} (hwait : s.wait = some x)
    (hpaused : s.paused = false) (hfault : s.fault = none) (hup : s.keyDown? k = false) :
    s.keyDown k = (s.setKey k true).captured x k :=
  (if_neg (ne_true_of_eq_false hup)).trans (State.onKeyTransition_of_capture k hwait hpaused hfault)

/-- R200, R201: a key that was held, or no capture that can be completed. -/
theorem State.keyDown_of_no_capture {s : State} {k : Key}
    (h : s.wait = none ∨ s.paused = true ∨ s.fault ≠ none ∨ s.keyDown? k = true) :
    s.keyDown k = s.setKey k true := by
  unfold State.keyDown
  split
  next => rfl
  next hup => exact State.onKeyTransition_of_no_capture k (by simpa [hup] using h)

/-- Settles O48: a key event is one write to the key, after which a capture that can be completed is. -/
theorem keyEventsAndCapture : Obligations.KeyEventsAndCapture := by
  intro s k
  refine ⟨?_, ?_, s.keyDown?_setKey_self k false, s.onlyChanges_setKey k false⟩
  · intro x hwait hpaused hfault hup
    rw [State.keyDown_of_capture hwait hpaused hfault hup]
    refine ⟨s.keyDown?_setKey_self k true, ?_, State.captured_pc _ x k, State.captured_wait _ x k,
      (s.onlyChanges_setKey k true).trans (State.onlyChanges_captured _ x k) (by simp) (by simp)⟩
    rw [State.readV_captured_self, keyByte_toNat]
  · intro h
    rw [State.keyDown_of_no_capture h]
    exact ⟨s.keyDown?_setKey_self k true, s.onlyChanges_setKey k true⟩

/-! ### SKP and SKNP (R204, R205, R211) -/

theorem exec_skp_of_key {x : Reg} {s : State} {k : Key} (h : (s.readV x).toNat = k.val) :
    exec (.skp x) s = .next (s.skipIf (s.keyDown? k)) := by
  rcases execSkp_cases x s with ⟨j, hj, hexec⟩ | ⟨hgt, -⟩
  · rw [Fin.ext (h.symm.trans hj)]
    exact hexec
  · omega

theorem exec_skp_of_gt {x : Reg} {s : State} (h : (s.readV x).toNat > 0x0F) :
    exec (.skp x) s = .next (s.raise .keyIndexOutOfRange (some (encode (.skp x)))) := by
  rcases execSkp_cases x s with ⟨j, hj, -⟩ | ⟨-, hexec⟩
  · omega
  · exact hexec

theorem exec_sknp_of_key {x : Reg} {s : State} {k : Key} (h : (s.readV x).toNat = k.val) :
    exec (.sknp x) s = .next (s.skipIf (!s.keyDown? k)) := by
  rcases execSknp_cases x s with ⟨j, hj, hexec⟩ | ⟨hgt, -⟩
  · rw [Fin.ext (h.symm.trans hj)]
    exact hexec
  · omega

theorem exec_sknp_of_gt {x : Reg} {s : State} (h : (s.readV x).toNat > 0x0F) :
    exec (.sknp x) s = .next (s.raise .keyIndexOutOfRange (some (encode (.sknp x)))) := by
  rcases execSknp_cases x s with ⟨j, hj, -⟩ | ⟨-, hexec⟩
  · omega
  · exact hexec

/-- Where a skip goes, as an offset. -/
theorem State.pc_skipIf (s : State) (c : Bool) : (s.skipIf c).pc = s.pc + (if c = true then 4 else 2) := by
  cases c <;> rfl

theorem State.pc_skipIf_not (s : State) (c : Bool) : (s.skipIf !c).pc = s.pc + (if c = true then 2 else 4) := by
  cases c <;> rfl

/-- Settles O45: each of the two is `skipIf` with the key's state, or fault entry alone. -/
theorem keySkipsReadTheKey : Obligations.KeySkipsReadTheKey := by
  intro x s
  constructor
  · intro k hk
    exact ⟨⟨_, exec_skp_of_key hk, s.onlyChanges_skipIf _, s.pc_skipIf _⟩,
      ⟨_, exec_sknp_of_key hk, s.onlyChanges_skipIf _, s.pc_skipIf_not _⟩⟩
  · intro hgt
    exact ⟨⟨_, exec_skp_of_gt hgt, s.raise_fault _ _, s.onlyChanges_raise _ _⟩,
      ⟨_, exec_sknp_of_gt hgt, s.raise_fault _ _, s.onlyChanges_raise _ _⟩⟩

/-! ### LD Vx,K (R206) -/

theorem exec_ldVxK (x : Reg) (s : State) : exec (.ldVxK x) s = .next { s with wait := some x } := rfl

/-- Settles O46: Fx0A is one write to `wait`. -/
theorem keyWaitStarts : Obligations.KeyWaitStarts := fun x s =>
  ⟨_, exec_ldVxK x s, rfl, s.onlyChanges_withWait (some x)⟩

/-! ### The timer instructions (R208 to R210) -/

theorem State.onlyChanges_withDt (s : State) (b : Byte) : OnlyChanges [.dt] s { s with dt := b } := by
  intro p hp
  cases p with
  | dt => exact absurd (List.mem_singleton_self _) hp
  | _ => rfl

theorem State.onlyChanges_withSt (s : State) (b : Byte) : OnlyChanges [.st] s { s with st := b } := by
  intro p hp
  cases p with
  | st => exact absurd (List.mem_singleton_self _) hp
  | _ => rfl

theorem exec_ldVxDt (x : Reg) (s : State) : exec (.ldVxDt x) s = .next (s.writeV x s.dt).fallThrough := rfl

theorem exec_ldDtVx (x : Reg) (s : State) :
    exec (.ldDtVx x) s = .next (State.fallThrough { s with dt := s.readV x }) := rfl

theorem exec_ldStVx (x : Reg) (s : State) :
    exec (.ldStVx x) s = .next (State.fallThrough { s with st := s.readV x }) := rfl

/-- Settles O47: each of the three is one write and the pc increment. -/
theorem timerInstructions : Obligations.TimerInstructions := by
  intro x s
  refine ⟨?_, ?_, ?_⟩
  · exact ⟨_, exec_ldVxDt x s, s.readV_writeV_self x _, rfl, s.onlyChanges_writeV_fallThrough x _⟩
  · exact ⟨_, exec_ldDtVx x s, rfl, rfl,
      (s.onlyChanges_withDt _).trans (State.onlyChanges_fallThrough _) (by simp) (by simp)⟩
  · exact ⟨_, exec_ldStVx x s, rfl, rfl,
      (s.onlyChanges_withSt _).trans (State.onlyChanges_fallThrough _) (by simp) (by simp)⟩

end Sys2Proof.Machine
end

section
/-! The word of a decoded instruction (30_encoding.md R79): decoding drops no bit, so encoding gives the word back. -/

namespace Sys2Proof

/-! ### A word rebuilt from its class and its fields -/

theorem encodeAddr_of_class {op : Word} {c : Nibble} (h : (fieldClass op).toNat = c.toNat) :
    encodeAddr c (fieldNNN op) = op := by
  rw [← BitVec.eq_of_toNat_eq h, encodeAddr_fields]

theorem encodeXKK_of_class {op : Word} {c : Nibble} (h : (fieldClass op).toNat = c.toNat) :
    encodeXKK c (fieldX op) (fieldKK op) = op := by
  rw [← BitVec.eq_of_toNat_eq h, encodeXKK_fields]

theorem encodeXYN_of_class {op : Word} {c : Nibble} (h : (fieldClass op).toNat = c.toNat) :
    encodeXYN c (fieldX op) (fieldY op) (fieldN op) = op := by
  rw [← BitVec.eq_of_toNat_eq h, encodeXYN_fields]

/-- Formats X: the sub-opcode is the field kk. -/
theorem encodeXKK_of_sub {op : Word} {c : Nibble} {kk : Byte} (h : (fieldClass op).toNat = c.toNat)
    (hsub : (fieldKK op).toNat = kk.toNat) : encodeXKK c (fieldX op) kk = op := by
  rw [← BitVec.eq_of_toNat_eq hsub, encodeXKK_of_class h]

/-- Format XY: the sub-opcode is the field n. -/
theorem encodeXYN_of_sub {op : Word} {c n : Nibble} (h : (fieldClass op).toNat = c.toNat)
    (hsub : (fieldN op).toNat = n.toNat) : encodeXYN c (fieldX op) (fieldY op) n = op := by
  rw [← BitVec.eq_of_toNat_eq hsub, encodeXYN_of_class h]

/-! ### Class by class -/

theorem encode_decodeClass0 {op : Word} (h : (fieldClass op).toNat = 0x0) : encode (decodeClass0 op) = op := by
  by_cases hcls : op = 0x00E0
  · subst hcls; rfl
  · by_cases hret : op = 0x00EE
    · subst hret; rfl
    · rw [decodeClass0_of_ne hcls hret]
      exact encodeAddr_of_class h

/-- Classes 5 and 9: an instruction of format XY with sub-opcode 0 keeps the word. -/
theorem encode_of_decodeZeroNibble {op : Word} {c : Nibble} {i j : Instr} (hc : (fieldClass op).toNat = c.toNat)
    (hi : encode i = encodeXYN c (fieldX op) (fieldY op) 0) (h : decodeZeroNibble op i = .ok j) : encode j = op := by
  unfold decodeZeroNibble at h
  split at h
  next hn =>
    cases h
    rw [hi]
    exact encodeXYN_of_sub hc (congrArg BitVec.toNat hn)
  next => cases h

theorem encode_of_decodeClass8 {op : Word} {i : Instr} (hc : (fieldClass op).toNat = 0x8)
    (h : decodeClass8 op = .ok i) : encode i = op := by
  unfold decodeClass8 at h
  split at h <;> cases h
  all_goals next hn => exact encodeXYN_of_sub hc hn

theorem encode_of_decodeClassE {op : Word} {i : Instr} (hc : (fieldClass op).toNat = 0xE)
    (h : decodeClassE op = .ok i) : encode i = op := by
  unfold decodeClassE at h
  split at h <;> cases h
  all_goals next hkk => exact encodeXKK_of_sub hc hkk

theorem encode_of_decodeClassF {op : Word} {i : Instr} (hc : (fieldClass op).toNat = 0xF)
    (h : decodeClassF op = .ok i) : encode i = op := by
  unfold decodeClassF at h
  split at h <;> cases h
  all_goals next hkk => exact encodeXKK_of_sub hc hkk

/-- R79: the word of the instruction a word decodes to is that word. -/
theorem encode_of_decode {op : Word} {i : Instr} (h : decode op = .ok i) : encode i = op := by
  unfold decode at h
  split at h
  next hc => cases h; exact encode_decodeClass0 hc
  next hc => cases h; exact encodeAddr_of_class hc
  next hc => cases h; exact encodeAddr_of_class hc
  next hc => cases h; exact encodeXKK_of_class hc
  next hc => cases h; exact encodeXKK_of_class hc
  next hc => exact encode_of_decodeZeroNibble (c := 0x5) hc rfl h
  next hc => cases h; exact encodeXKK_of_class hc
  next hc => cases h; exact encodeXKK_of_class hc
  next hc => exact encode_of_decodeClass8 hc h
  next hc => exact encode_of_decodeZeroNibble (c := 0x9) hc rfl h
  next hc => cases h; exact encodeAddr_of_class hc
  next hc => cases h; exact encodeAddr_of_class hc
  next hc => cases h; exact encodeXKK_of_class hc
  next hc => cases h; exact encodeXYN_of_class hc
  next hc => exact encode_of_decodeClassE hc h
  next =>
    have hlt := (fieldClass op).isLt
    have hc : (fieldClass op).toNat = 0xF := by simp only [imp_false] at *; omega
    exact encode_of_decodeClassF hc h

end Sys2Proof
end

section
/-! Faults (60_exceptions.md R230 to R234): what every instruction can answer, the state a faulting step leaves, and
what the machine does once a fault is recorded. -/

namespace Sys2Proof.Machine

/-! ### What an instruction can answer -/

/-- Every instruction completes and leaves the fault record and the accumulator, or is fault entry under its own word,
or is a CALL or RET with `sp` above 16 (notes/assumptions/5.md). -/
theorem exec_cases (i : Instr) (s : State) :
    (∃ t, exec i s = .next t ∧ t.fault = s.fault ∧ t.lag = s.lag) ∨
    (∃ kind, exec i s = .next (s.raise kind (some (encode i)))) ∨
    exec i s = .fault .stackPointerOutOfRange := by
  cases i with
  | call nnn =>
    rcases execCall_cases nnn s with ⟨-, hstop⟩ | ⟨-, hraise⟩ | ⟨-, hnext⟩
    · exact .inr (.inr hstop)
    · exact .inr (.inl ⟨_, hraise⟩)
    · exact .inl ⟨_, hnext, rfl, rfl⟩
  | ret =>
    rcases execRet_cases s with ⟨-, hstop⟩ | ⟨-, hraise⟩ | ⟨-, -, hnext⟩
    · exact .inr (.inr hstop)
    · exact .inr (.inl ⟨_, hraise⟩)
    · exact .inl ⟨_, hnext, rfl, rfl⟩
  | drw x y n =>
    rcases execDrw_cases x y n s with ⟨-, hnext⟩ | ⟨-, hraise⟩
    · exact .inl ⟨_, hnext, rfl, rfl⟩
    · exact .inr (.inl ⟨_, hraise⟩)
  | skp x =>
    rcases execSkp_cases x s with ⟨_, -, hnext⟩ | ⟨-, hraise⟩
    · exact .inl ⟨_, hnext, s.skipIf_fault _, s.skipIf_lag _⟩
    · exact .inr (.inl ⟨_, hraise⟩)
  | sknp x =>
    rcases execSknp_cases x s with ⟨_, -, hnext⟩ | ⟨-, hraise⟩
    · exact .inl ⟨_, hnext, s.skipIf_fault _, s.skipIf_lag _⟩
    · exact .inr (.inl ⟨_, hraise⟩)
  | ldBVx x =>
    rcases s.storeAtI_cases (.ldBVx x) (bcdDigits (s.readV x)) with ⟨-, hnext⟩ | ⟨-, hraise⟩
    · exact .inl ⟨_, hnext, rfl, rfl⟩
    · exact .inr (.inl ⟨_, hraise⟩)
  | ldMemVx x =>
    rcases s.storeAtI_cases (.ldMemVx x) (s.readVs x) with ⟨-, hnext⟩ | ⟨-, hraise⟩
    · exact .inl ⟨_, hnext, rfl, rfl⟩
    · exact .inr (.inl ⟨_, hraise⟩)
  | ldVxMem x =>
    rcases execLdVxMem_cases x s with ⟨-, hnext⟩ | ⟨-, hraise⟩
    · exact .inl ⟨_, hnext, s.writeVs_fault _ _, s.writeVs_lag _ _⟩
    · exact .inr (.inl ⟨_, hraise⟩)
  | seImm x kk => exact .inl ⟨_, exec_seImm x kk s, s.skipIf_fault _, s.skipIf_lag _⟩
  | sneImm x kk => exact .inl ⟨_, exec_sneImm x kk s, s.skipIf_fault _, s.skipIf_lag _⟩
  | seReg x y => exact .inl ⟨_, exec_seReg x y s, s.skipIf_fault _, s.skipIf_lag _⟩
  | sneReg x y => exact .inl ⟨_, exec_sneReg x y s, s.skipIf_fault _, s.skipIf_lag _⟩
  | _ => exact .inl ⟨_, rfl, rfl, rfl⟩

/-! ### What a step can answer -/

/-- A step that goes on leaves the fault record and the accumulator, or is fault entry with the fetched word, of
whichever of fetch, decoder and instruction raised it (R232). -/
theorem step_next_cases {s t : State} (h : step s = .next t) :
    (t.fault = s.fault ∧ t.lag = s.lag) ∨ (s.Runs ∧ ∃ kind, t = s.raise kind s.fetch) := by
  by_cases hruns : s.Runs
  · rcases step_cases hruns with ⟨hf, hstep⟩ | ⟨op, hf, -, hstep⟩ | ⟨op, i, hf, hd, hstep⟩
    · cases hstep.symm.trans h
      exact .inr ⟨hruns, _, by rw [hf]⟩
    · cases hstep.symm.trans h
      exact .inr ⟨hruns, _, by rw [hf]⟩
    · rcases exec_cases i s with ⟨u, hexec, hsame⟩ | ⟨kind, hexec⟩ | hexec <;>
        cases (hstep.trans hexec).symm.trans h
      · exact .inl hsame
      · exact .inr ⟨hruns, kind, by rw [hf, encode_of_decode hd]⟩
  · cases (step_of_not_runs hruns).symm.trans h
    exact .inl ⟨rfl, rfl⟩

/-- R12: the report of a step that records a fault. -/
theorem stepReport_of_fault {s t : State} {r : FaultRecord} (hruns : s.Runs) (hstep : step s = .next t)
    (hr : t.fault = some r) : stepReport s = some (.fault r.kind) := by
  simp only [stepReport, s.idle_eq_none_iff.mpr hruns, hstep, hr]

/-- Settles O10: a step that leaves another fault record is fault entry with the fetched word. -/
theorem faultsArePrecise : Obligations.FaultsArePrecise := by
  intro s t r hstep hnone hr
  rcases step_next_cases hstep with ⟨hsame, -⟩ | ⟨hruns, kind, rfl⟩
  · exact absurd (hr.symm.trans (hsame.trans hnone)) nofun
  · have hreport := stepReport_of_fault hruns hstep hr
    cases hr
    exact ⟨s.onlyChanges_raise kind s.fetch, rfl, rfl, hreport⟩

/-! ### A faulted machine (R233) -/

/-- R233, R242: a frame while faulted or paused is nothing. -/
theorem frame_of_faulted_or_paused {c : Config} {s : State} (h : s.fault ≠ none ∨ s.paused = true) :
    frame c s = .next s :=
  if_pos (by simpa [Option.isSome_iff_ne_none] using h)

section
variable {s : State} (h : s.fault ≠ none)
include h

theorem step_of_faulted : step s = .next s := step_of_not_runs fun hruns => h hruns.1

theorem stepReport_of_faulted : stepReport s = some .halted := by
  simp [stepReport, State.idle, Option.isSome_iff_ne_none.mpr h]

theorem frame_of_faulted (c : Config) : frame c s = .next s := frame_of_faulted_or_paused (.inl h)

theorem State.keyDown_of_faulted (k : Key) : s.keyDown k = s.setKey k true :=
  State.keyDown_of_no_capture (.inr (.inr (.inl h)))

end

/-- Frames of a faulted machine use up the accumulator and keep the record. -/
theorem fault_of_runFrames {c : Config} {k : Nat} {s t : State} (h : s.fault ≠ none)
    (hrun : runFrames c k s = .next t) : t.fault = s.fault := by
  induction k generalizing s with
  | zero => cases hrun; rfl
  | succ n ih =>
    rw [runFrames, frame_of_faulted (s := { s with lag := s.lag - c.tickPeriod }) h] at hrun
    exact ih (s := { s with lag := s.lag - c.tickPeriod }) h hrun

/-- The state an event of the scheduler answers is its result's. -/
theorem eq_next_of_reply {x : Result} {t : State} {q : Reply} (h : x.reply = .next (t, q)) : x = .next t := by
  cases x <;> cases h
  rfl

/-- A key event that is not refused has its effect (R257). -/
theorem eq_of_withKey {k : Nat} {f : Key → State} {t : State} {q : Reply} (h : withKey k f = .next (t, q)) :
    t = f (fin16 k) := by
  unfold withKey at h
  split at h <;> cases h
  rfl

/-- R233: no event but a `load` writes the record of a faulted machine. -/
theorem fault_of_applyEvent {c : Config} {e : Event} {s t : State} {q : Reply} (hload : ∀ rom, e ≠ .load rom)
    (h : s.fault ≠ none) (he : applyEvent c e s = .next (t, q)) : t.fault = s.fault := by
  cases e with
  | load rom => exact absurd rfl (hload rom)
  | frame =>
    cases (frame_of_faulted h c).symm.trans (eq_next_of_reply he)
    rfl
  | advance elapsed => exact fault_of_runFrames (s := { s with lag := s.lag + elapsed }) h (eq_next_of_reply he)
  | keyDown k => rw [eq_of_withKey he, State.keyDown_of_faulted h, State.setKey_fault]
  | keyUp k => rw [eq_of_withKey he, State.keyUp_fault]
  | pauseToggle => cases he; rfl

theorem fault_of_accepted_load {c : Config} {rom : List Byte} {s t : State}
    (h : applyEvent c (.load rom) s = .next (t, .done)) : t.fault = none := by
  rcases Nat.lt_or_ge maxRom rom.length with hlong | hfits
  · cases (applyEvent_load_of_error (s.load_of_too_long c hlong)).symm.trans h
  · cases (applyEvent_load_of_ok (s.load_of_fits c hfits)).symm.trans h
    rfl

/-- Settles O11: a faulted machine is idle, and of the events only an accepted load writes the record. -/
theorem onlyLoadClearsAFault : Obligations.OnlyLoadClearsAFault := by
  intro c s r hr
  have h : s.fault ≠ none := by simp [hr]
  refine ⟨step_of_faulted h, stepReport_of_faulted h, frame_of_faulted h c, fun k => ?_,
    fun e t q hload he => (fault_of_applyEvent hload h he).trans hr, fun rom t => fault_of_accepted_load⟩
  rw [State.keyDown_of_faulted h k]
  exact ⟨s.keyDown?_setKey_self k true, s.onlyChanges_setKey k true, s.keyDown?_setKey_self k false,
    s.onlyChanges_setKey k false⟩

end Sys2Proof.Machine
end

section
/-! Timers, frames and the scheduler (60_exceptions.md R240 to R250): the tick, frames that make no step, and the loop
of `advance`. -/

namespace Sys2Proof.Machine

/-! ### The tick (R240) -/

theorem countDown_toNat (b : Byte) : (countDown b).toNat = b.toNat - 1 := by
  unfold countDown
  split
  next hzero => rw [hzero]; rfl
  next hne =>
    have hpos : 1#8 ≤ b := BitVec.le_def.mpr (Nat.pos_of_ne_zero (mt (BitVec.eq_of_toNat_eq (y := 0)) hne))
    exact BitVec.toNat_sub_of_le hpos

theorem State.onlyChanges_tickTimers (s : State) : OnlyChanges [.dt, .st] s s.tickTimers :=
  (s.onlyChanges_withDt (countDown s.dt)).trans (State.onlyChanges_withSt _ (countDown s.st)) (by simp) (by simp)

/-- Settles O50: each timer is counted down, and no other part is written. -/
theorem tickDecrementsBothTimers : Obligations.TickDecrementsBothTimers := fun s =>
  ⟨countDown_toNat s.dt, countDown_toNat s.st, s.onlyChanges_tickTimers⟩

/-! ### Frames that make no step (R241, R242, R245) -/

theorem runBudget_of_budgetOver (k : Nat) {s : State} (h : s.budgetOver = true) : runBudget k s = .next s := by
  cases k with
  | zero => rfl
  | succ n => exact if_pos h

theorem frame_of_active {c : Config} {s : State} (hfault : s.fault = none) (hpaused : s.paused = false) :
    frame c s = runBudget c.ipt (s.frameTick c) :=
  if_neg (by simp [hfault, hpaused])

theorem State.frameTick_of_waiting {c : Config} {s : State} (h : s.wait ≠ none) :
    s.frameTick c = if c.timersRunWhileAwaiting = true then s.tickTimers else s := by
  simp [State.frameTick, h]

/-- Settles O52: a frame while faulted or paused is nothing; a wait ends the budget before the first step. -/
theorem haltedPausedAndWaitingFrames : Obligations.HaltedPausedAndWaitingFrames := by
  intro c s
  refine ⟨frame_of_faulted_or_paused, fun hfault hpaused hwait => ?_⟩
  have hover : (s.frameTick c).budgetOver = true := by
    simp [State.budgetOver, Option.isSome_iff_ne_none, hwait]
  rw [frame_of_active hfault hpaused, runBudget_of_budgetOver c.ipt hover, State.frameTick_of_waiting hwait]

/-! ### Steps and frames leave the accumulator -/

theorem lag_of_step {s t : State} (h : step s = .next t) : t.lag = s.lag := by
  rcases step_next_cases h with ⟨-, hlag⟩ | ⟨-, kind, rfl⟩
  · exact hlag
  · rfl

/-- What goes on after a result went on after that result. -/
theorem andThen_eq_next {x : Result} {f : State → Result} {t : State} (h : Result.andThen x f = .next t) :
    ∃ u, x = .next u ∧ f u = .next t := by
  cases x with
  | next u => exact ⟨u, rfl, h⟩
  | fault e => cases h
  | refused e => cases h

theorem andThen_congr {x : Result} {f g : State → Result} (h : ∀ t, x = .next t → f t = g t) :
    Result.andThen x f = Result.andThen x g := by
  cases x with
  | next t => exact h t rfl
  | fault e => rfl
  | refused e => rfl

theorem lag_of_runBudget {k : Nat} {s t : State} (h : runBudget k s = .next t) : t.lag = s.lag := by
  induction k generalizing s with
  | zero => cases h; rfl
  | succ n ih =>
    unfold runBudget at h
    split at h
    next => cases h; rfl
    next =>
      obtain ⟨u, hstep, hrest⟩ := andThen_eq_next h
      exact (ih hrest).trans (lag_of_step hstep)

theorem lag_of_frame {c : Config} {s t : State} (h : frame c s = .next t) : t.lag = s.lag := by
  unfold frame at h
  split at h
  next => cases h; rfl
  next => exact (lag_of_runBudget h).trans (s.frameTick_lag c)

/-! ### The loop of `advance` (R247) -/

theorem framesDue_of_lt {c : Config} {lag : Nat} (h : lag < c.tickPeriod) : framesDue c lag = 0 :=
  Nat.div_eq_of_lt h

theorem framesDue_of_le {c : Config} {lag : Nat} (h : c.tickPeriod ≤ lag) :
    framesDue c lag = framesDue c (lag - c.tickPeriod) + 1 :=
  Nat.div_eq_sub_div c.tickPeriod_pos h

/-- An `advance` by nothing makes the frames the accumulator already holds. -/
theorem advance_zero (c : Config) (s : State) : advance c 0 s = runFrames c (framesDue c s.lag) s := rfl

/-- Settles O54: with a period due the first turn of the loop leaves the accumulator one period lower, which is the
accumulator the rest of the loop counts its turns by. -/
theorem advanceIsTheSchedulerLoop : Obligations.AdvanceIsTheSchedulerLoop := by
  intro c e s
  constructor
  · intro hlt
    rw [advance, framesDue_of_lt hlt]
    rfl
  · intro hle
    rw [advance, framesDue_of_le hle]
    refine andThen_congr fun t ht => ?_
    rw [advance_zero, lag_of_frame ht]

end Sys2Proof.Machine
end

section
/-! What every instruction answers (60_exceptions.md R230 to R232), said once for all of them: the checks an
instruction makes, the state it leaves when they pass, and `exec` in those terms. The rules about which instruction
writes or reads which piece of state (10_state.md R37) are case splits over that state. -/

namespace Sys2Proof.Machine

/-! ### The operations that hide what they write, as one record update -/

/-- The register file a block load leaves (42_index_memory.md R165). -/
def writeRegs (v : Vector Byte 16) (k : Nat) (bs : List Byte) : Vector Byte 16 :=
  match bs with
  | [] => v
  | b :: rest => writeRegs (v.set (fin16 k) b) (k + 1) rest

theorem State.writeVs_eq (s : State) (k : Nat) (bs : List Byte) :
    s.writeVs k bs = { s with v := writeRegs s.v k bs } := by
  induction bs generalizing s k with
  | nil => rfl
  | cons b rest ih => rw [State.writeVs, ih]; rfl

theorem State.skipIf_eq_jumpTo (s : State) (c : Bool) : s.skipIf c = s.jumpTo (s.pc + (if c then 4 else 2)) := by
  cases c <;> rfl

/-! ### The checks and the completed instruction -/

/-- The kind an instruction's own check raises (60_exceptions.md R230), for `sp` up to 16. -/
def State.trap (s : State) (i : Instr) : Option FaultKind :=
  match i with
  | .call _ => if s.sp.toNat = 16 then some .stackOverflow else none
  | .ret => if s.sp.toNat = 0 then some .stackUnderflow else none
  | .drw _ _ n => if accessInRange s.memBase n.toNat then none else some .memoryOutOfRange
  | .ldBVx _ => if accessInRange s.memBase 3 then none else some .memoryOutOfRange
  | .ldMemVx x | .ldVxMem x => if accessInRange s.memBase (x.val + 1) then none else some .memoryOutOfRange
  | .skp x | .sknp x => if (s.readV x).toNat ≤ 15 then none else some .keyIndexOutOfRange
  | _ => none

/-- The model's own stop: CALL or RET with `sp` above 16 (notes/assumptions/5.md). -/
def State.stops (s : State) (i : Instr) : Bool :=
  match i with
  | .call _ | .ret => decide (16 < s.sp.toNat)
  | _ => false

/-- The state an instruction leaves when its checks pass. -/
def State.completed (s : State) (i : Instr) : State :=
  match i with
  | .cls => State.fallThrough { s with disp := Display.clear }
  | .ret => s.pop.jumpTo s.stackTop
  | .sys _ => s.fallThrough
  | .jp nnn => s.jumpTo (zextAddr nnn)
  | .call nnn => (s.push (s.pc + 2)).jumpTo (zextAddr nnn)
  | .seImm x kk => s.jumpTo (s.pc + (if s.readV x == kk then 4 else 2))
  | .sneImm x kk => s.jumpTo (s.pc + (if s.readV x != kk then 4 else 2))
  | .seReg x y => s.jumpTo (s.pc + (if s.readV x == s.readV y then 4 else 2))
  | .ldImm x kk => (s.writeV x kk).fallThrough
  | .addImm x kk => (s.writeV x (s.readV x + kk)).fallThrough
  | .ldReg x y => (s.writeV x (s.readV y)).fallThrough
  | .orReg x y => (s.writeV x (s.readV x ||| s.readV y)).fallThrough
  | .andReg x y => (s.writeV x (s.readV x &&& s.readV y)).fallThrough
  | .xorReg x y => (s.writeV x (s.readV x ^^^ s.readV y)).fallThrough
  | .addReg x y => (s.writeWithFlag x (s.readV x + s.readV y) (carry (s.readV x) (s.readV y))).fallThrough
  | .subReg x y => (s.writeWithFlag x (s.readV x - s.readV y) (notBorrow (s.readV x) (s.readV y))).fallThrough
  | .shr x _ => (s.writeWithFlag x (s.readV x >>> 1) (shiftedOutRight (s.readV x))).fallThrough
  | .subnReg x y => (s.writeWithFlag x (s.readV y - s.readV x) (notBorrow (s.readV y) (s.readV x))).fallThrough
  | .shl x _ => (s.writeWithFlag x (s.readV x <<< 1) (shiftedOutLeft (s.readV x))).fallThrough
  | .sneReg x y => s.jumpTo (s.pc + (if s.readV x != s.readV y then 4 else 2))
  | .ldI nnn => (s.setI (zextAddr nnn)).fallThrough
  | .jpV0 nnn => s.jumpTo (zextAddr nnn + zextByte (s.readV 0))
  | .rnd x kk => (s.afterDraw.writeV x (s.nextDraw &&& kk)).fallThrough
  | .drw x y n => s.spriteDrawn x y n
  | .skp x => s.jumpTo (s.pc + (if s.keyDown? (fin16 (s.readV x).toNat) then 4 else 2))
  | .sknp x => s.jumpTo (s.pc + (if !s.keyDown? (fin16 (s.readV x).toNat) then 4 else 2))
  | .ldVxDt x => (s.writeV x s.dt).fallThrough
  | .ldVxK x => { s with wait := some x }
  | .ldDtVx x => State.fallThrough { s with dt := s.readV x }
  | .ldStVx x => State.fallThrough { s with st := s.readV x }
  | .addIVx x => (s.setI (s.i + zextByte (s.readV x))).fallThrough
  | .ldFVx x => (s.setI (glyphAddr (s.readV x))).fallThrough
  | .ldBVx x => State.fallThrough { s with mem := s.mem.writeBlock s.memBase (bcdDigits (s.readV x)) }
  | .ldMemVx x => State.fallThrough { s with mem := s.mem.writeBlock s.memBase (s.readVs x) }
  | .ldVxMem x =>
    State.fallThrough { s with v := writeRegs s.v 0 (s.mem.readBlock s.memBase (x.val + 1)) }

/-- What an instruction answers, by its checks. -/
def State.answer (s : State) (i : Instr) : Result :=
  if s.stops i then .fault .stackPointerOutOfRange
  else
    match s.trap i with
    | none => .next (s.completed i)
    | some kind => .next (s.raise kind (some (encode i)))

section
variable {s : State} {i : Instr}

theorem State.answer_of_stops (h : s.stops i = true) : s.answer i = .fault .stackPointerOutOfRange := if_pos h

theorem State.answer_of_trap_none (hs : s.stops i = false) (ht : s.trap i = none) :
    s.answer i = .next (s.completed i) := by
  simp [State.answer, hs, ht]

theorem State.answer_of_trap_some {kind : FaultKind} (hs : s.stops i = false) (ht : s.trap i = some kind) :
    s.answer i = .next (s.raise kind (some (encode i))) := by
  simp [State.answer, hs, ht]

end

/-- An instruction with one check: it completes when the check passes, else it is fault entry. -/
theorem eq_answer_of_check {s : State} {i : Instr} {r : Result} {P : Prop} [Decidable P] {kind : FaultKind}
    (hs : s.stops i = false) (ht : s.trap i = if P then none else some kind)
    (h : (P ∧ r = .next (s.completed i)) ∨ (¬ P ∧ r = .next (s.raise kind (some (encode i))))) :
    r = s.answer i := by
  rcases h with ⟨hP, hr⟩ | ⟨hP, hr⟩
  · rw [hr, State.answer_of_trap_none hs (ht.trans (if_pos hP))]
  · rw [hr, State.answer_of_trap_some hs (ht.trans (if_neg hP))]

/-- Every instruction makes its checks, then completes. -/
theorem exec_eq_answer (i : Instr) (s : State) : exec i s = s.answer i := by
  cases i with
  | call nnn =>
    rcases execCall_cases nnn s with ⟨hsp, hexec⟩ | ⟨hsp, hexec⟩ | ⟨hsp, hexec⟩
    · exact hexec.trans (State.answer_of_stops (i := .call nnn) (decide_eq_true hsp)).symm
    · exact hexec.trans
        (State.answer_of_trap_some (i := .call nnn) (decide_eq_false (by omega)) (if_pos hsp)).symm
    · exact hexec.trans
        (State.answer_of_trap_none (i := .call nnn) (decide_eq_false (by omega)) (if_neg (by omega))).symm
  | ret =>
    rcases execRet_cases s with ⟨hsp, hexec⟩ | ⟨hsp, hexec⟩ | ⟨hpos, hsp, hexec⟩
    · exact hexec.trans (State.answer_of_stops (i := .ret) (decide_eq_true hsp)).symm
    · exact hexec.trans (State.answer_of_trap_some (i := .ret) (decide_eq_false (by omega)) (if_pos hsp)).symm
    · exact hexec.trans
        (State.answer_of_trap_none (i := .ret) (decide_eq_false (by omega)) (if_neg (by omega))).symm
  | drw x y n => exact eq_answer_of_check rfl rfl ((execDrw_cases x y n s).imp_right (And.imp_left ne_true_of_eq_false))
  | skp x =>
    refine eq_answer_of_check rfl rfl ((execSkp_cases x s).imp ?_ (.imp_left Nat.not_le.mpr))
    rintro ⟨k, hk, hexec⟩
    have hkey : fin16 (s.readV x).toNat = k := by rw [hk, fin16_val]
    exact ⟨by omega, by rw [← hkey, s.skipIf_eq_jumpTo] at hexec; exact hexec⟩
  | sknp x =>
    refine eq_answer_of_check rfl rfl ((execSknp_cases x s).imp ?_ (.imp_left Nat.not_le.mpr))
    rintro ⟨k, hk, hexec⟩
    have hkey : fin16 (s.readV x).toNat = k := by rw [hk, fin16_val]
    exact ⟨by omega, by rw [← hkey, s.skipIf_eq_jumpTo] at hexec; exact hexec⟩
  | ldBVx x =>
    exact eq_answer_of_check rfl rfl
      ((s.storeAtI_cases (.ldBVx x) (bcdDigits (s.readV x))).imp_right (And.imp_left ne_true_of_eq_false))
  | ldMemVx x =>
    have h := (s.storeAtI_cases (.ldMemVx x) (s.readVs x)).imp_right (And.imp_left ne_true_of_eq_false)
    rw [s.readVs_length] at h
    exact eq_answer_of_check rfl rfl h
  | ldVxMem x =>
    have h := (execLdVxMem_cases x s).imp_right (And.imp_left ne_true_of_eq_false)
    rw [s.writeVs_eq] at h
    exact eq_answer_of_check rfl rfl h
  | seImm | sneImm | seReg | sneReg => exact congrArg _ (s.skipIf_eq_jumpTo _)
  | _ => rfl

end Sys2Proof.Machine
end

section
/-! Which instruction writes or reads which piece of state (10_state.md R37; 20_memory.md R54; 40_control_flow.md R102;
60_exceptions.md R231), each a case split over `State.completed`. -/

namespace Sys2Proof.Machine

/-! ### What `exec` going on means -/

theorem exec_of_checked {s : State} {i : Instr} (hs : s.stops i = false) (ht : s.trap i = none) :
    exec i s = .next (s.completed i) :=
  (exec_eq_answer i s).trans (State.answer_of_trap_none hs ht)

/-- An instruction that goes on completes, or is fault entry under its own word. -/
theorem exec_next_cases {i : Instr} {s t : State} (h : exec i s = .next t) :
    (s.trap i = none ∧ t = s.completed i) ∨
    (∃ kind, s.trap i = some kind ∧ t = s.raise kind (some (encode i))) := by
  rw [exec_eq_answer, State.answer] at h
  split at h
  · cases h
  · split at h <;> cases h
    · exact .inl ⟨by assumption, rfl⟩
    · exact .inr ⟨_, by assumption, rfl⟩

/-- With `sp` up to 16 every instruction goes on. -/
theorem exec_goes_on (i : Instr) {s : State} (h : s.sp.toNat ≤ 16) : ∃ t, exec i s = .next t := by
  have hs : s.stops i = false := by
    cases i with
    | call _ => exact decide_eq_false (Nat.not_lt.mpr h)
    | ret => exact decide_eq_false (Nat.not_lt.mpr h)
    | _ => rfl
  rw [exec_eq_answer]
  cases ht : s.trap i with
  | none => exact ⟨_, State.answer_of_trap_none hs ht⟩
  | some kind => exact ⟨_, State.answer_of_trap_some hs ht⟩

/-- R230: no instruction raises ProgramTooLarge. -/
theorem State.trap_ne_programTooLarge (s : State) (i : Instr) : s.trap i ≠ some .programTooLarge := by
  cases i <;> simp [State.trap]

/-! ### Instructions without a check (R230, R231) -/

section
variable {i : Instr} (hcall : ∀ a, i ≠ .call a) (hret : i ≠ .ret)

include hcall hret in
theorem State.stops_eq_false (s : State) : s.stops i = false := by
  cases i with
  | call a => exact absurd rfl (hcall a)
  | ret => exact absurd rfl hret
  | _ => rfl

include hcall hret in
theorem State.trap_eq_none (s : State) (hdrw : ∀ x y n, i ≠ .drw x y n) (hskp : ∀ x, i ≠ .skp x)
    (hsknp : ∀ x, i ≠ .sknp x) (hldB : ∀ x, i ≠ .ldBVx x) (hstore : ∀ x, i ≠ .ldMemVx x)
    (hload : ∀ x, i ≠ .ldVxMem x) : s.trap i = none := by
  cases i with
  | call a => exact absurd rfl (hcall a)
  | ret => exact absurd rfl hret
  | drw x y n => exact absurd rfl (hdrw x y n)
  | skp x => exact absurd rfl (hskp x)
  | sknp x => exact absurd rfl (hsknp x)
  | ldBVx x => exact absurd rfl (hldB x)
  | ldMemVx x => exact absurd rfl (hstore x)
  | ldVxMem x => exact absurd rfl (hload x)
  | _ => rfl

end

theorem State.completed_fault (s : State) (i : Instr) : (s.completed i).fault = s.fault := by cases i <;> rfl

/-- Settles O12: an instruction without a check completes, and completing leaves the record. -/
theorem otherInstructionsNeverFault : Obligations.OtherInstructionsNeverFault := by
  intro i s hcall hret hdrw hskp hsknp hldB hstore hload
  exact ⟨_, exec_of_checked (s.stops_eq_false hcall hret)
    (s.trap_eq_none hcall hret hdrw hskp hsknp hldB hstore hload), s.completed_fault i⟩

/-! ### What a completed instruction leaves (R37) -/

section
variable (s : State) (i : Instr)

theorem State.completed_keys : (s.completed i).keys = s.keys := by cases i <;> rfl

theorem State.completed_paused : (s.completed i).paused = s.paused := by cases i <;> rfl

theorem State.completed_lag : (s.completed i).lag = s.lag := by cases i <;> rfl

variable {i}

theorem State.completed_i (hldI : ∀ a, i ≠ .ldI a) (hadd : ∀ x, i ≠ .addIVx x) (hldF : ∀ x, i ≠ .ldFVx x) :
    (s.completed i).i = s.i := by
  cases i with
  | ldI a => exact absurd rfl (hldI a)
  | addIVx x => exact absurd rfl (hadd x)
  | ldFVx x => exact absurd rfl (hldF x)
  | _ => rfl

theorem State.completed_sp (hcall : ∀ a, i ≠ .call a) (hret : i ≠ .ret) : (s.completed i).sp = s.sp := by
  cases i with
  | call a => exact absurd rfl (hcall a)
  | ret => exact absurd rfl hret
  | _ => rfl

theorem State.completed_stack (hcall : ∀ a, i ≠ .call a) : (s.completed i).stack = s.stack := by
  cases i with
  | call a => exact absurd rfl (hcall a)
  | _ => rfl

theorem State.completed_mem (hldB : ∀ x, i ≠ .ldBVx x) (hstore : ∀ x, i ≠ .ldMemVx x) :
    (s.completed i).mem = s.mem := by
  cases i with
  | ldBVx x => exact absurd rfl (hldB x)
  | ldMemVx x => exact absurd rfl (hstore x)
  | _ => rfl

theorem State.completed_disp (hcls : i ≠ .cls) (hdrw : ∀ x y n, i ≠ .drw x y n) :
    (s.completed i).disp = s.disp := by
  cases i with
  | cls => exact absurd rfl hcls
  | drw x y n => exact absurd rfl (hdrw x y n)
  | _ => rfl

theorem State.completed_dt (hdt : ∀ x, i ≠ .ldDtVx x) : (s.completed i).dt = s.dt := by
  cases i with
  | ldDtVx x => exact absurd rfl (hdt x)
  | _ => rfl

theorem State.completed_st (hst : ∀ x, i ≠ .ldStVx x) : (s.completed i).st = s.st := by
  cases i with
  | ldStVx x => exact absurd rfl (hst x)
  | _ => rfl

theorem State.completed_wait (hwait : ∀ x, i ≠ .ldVxK x) : (s.completed i).wait = s.wait := by
  cases i with
  | ldVxK x => exact absurd rfl (hwait x)
  | _ => rfl

theorem State.completed_rngDraws (hrnd : ∀ x kk, i ≠ .rnd x kk) : (s.completed i).rngDraws = s.rngDraws := by
  cases i with
  | rnd x kk => exact absurd rfl (hrnd x kk)
  | _ => rfl

theorem State.readV_fallThrough_writeV_of_notMem {x r : Reg} (b : Byte) (h : r ∉ [x]) :
    (s.writeV x b).fallThrough.readV r = s.readV r :=
  (s.readV_writeV x r b).trans (if_neg (mt List.mem_singleton.mpr h))

theorem State.readV_fallThrough_writeWithFlag_of_notMem {x r : Reg} (b : Byte) (f : Bool) (h : r ∉ [x, vF]) :
    (s.writeWithFlag x b f).fallThrough.readV r = s.readV r := by
  obtain ⟨hx, hvF⟩ : r ≠ x ∧ r ≠ vF := by simpa using h
  exact ((s.writeV x b).readV_writeV vF r _).trans ((if_neg hvF).trans ((s.readV_writeV x r b).trans (if_neg hx)))

/-- R21, R22: a completed instruction writes no register but its destinations. -/
theorem State.readV_completed {r : Reg} (h : r ∉ destinations i) : (s.completed i).readV r = s.readV r := by
  cases i with
  | ldImm | addImm | ldReg | orReg | andReg | xorReg | ldVxDt => exact s.readV_fallThrough_writeV_of_notMem _ h
  | rnd => exact s.afterDraw.readV_fallThrough_writeV_of_notMem _ h
  | drw => exact State.readV_fallThrough_writeV_of_notMem _ _ h
  | addReg | subReg | subnReg | shr | shl => exact s.readV_fallThrough_writeWithFlag_of_notMem _ _ h
  | ldVxMem x =>
    have hregs : Part.v r ∉ .pc :: regParts x := by simpa [regParts, destinations] using h
    have hsame := s.onlyChanges_blockLoaded x _ hregs
    rw [State.blockLoaded, State.writeVs_eq] at hsame
    exact hsame
  | _ => rfl

end

/-- Settles O19: each clause is what completing leaves, or that fault entry leaves everything but the record. -/
theorem stateIsWrittenOnlyByItsWriters : Obligations.StateIsWrittenOnlyByItsWriters := by
  intro i s t h
  rcases exec_next_cases h with ⟨-, rfl⟩ | ⟨kind, htrap, rfl⟩
  · exact ⟨fun r => s.readV_completed, s.completed_i, s.completed_sp, s.completed_stack, s.completed_mem,
      s.completed_disp, s.completed_dt, s.completed_st, s.completed_wait,
      fun _ _ _ _ _ _ _ _ => s.completed_fault i, s.completed_rngDraws, s.completed_keys i, s.completed_paused i,
      s.completed_lag i⟩
  · refine ⟨fun _ _ => rfl, fun _ _ _ => rfl, fun _ _ => rfl, fun _ => rfl, fun _ _ => rfl, fun _ _ => rfl,
      fun _ => rfl, fun _ => rfl, fun _ => rfl, ?_, fun _ => rfl, rfl, rfl, rfl⟩
    intro hcall hret hdrw hskp hsknp hldB hstore hload
    exact absurd ((s.trap_eq_none hcall hret hdrw hskp hsknp hldB hstore hload).symm.trans htrap) nofun

/-- Settles O20: the registers' clause of `stateIsWrittenOnlyByItsWriters`. -/
theorem registersChangeOnlyAsDestinations : Obligations.RegistersChangeOnlyAsDestinations := by
  intro i s t r h hr
  obtain ⟨hregs, -⟩ := stateIsWrittenOnlyByItsWriters i s t h
  exact hregs r hr

/-! ### Where pc goes (40_control_flow.md R102) -/

theorem word_add_two_toNat (a : Word) : (a + 2).toNat = (a.toNat + 2) % 65536 := BitVec.toNat_add a 2

theorem word_skip_toNat (a : Word) (c : Bool) :
    (a + (if c then 4 else 2)).toNat = (a.toNat + 4) % 65536 ∨
    (a + (if c then 4 else 2)).toNat = (a.toNat + 2) % 65536 := by
  cases c with
  | false => exact .inr (word_add_two_toNat a)
  | true => exact .inl (BitVec.toNat_add a 4)

/-- Settles O22: an instruction that leaves no fault record completed, and its pc is read off. -/
theorem nextPcIsTargetSkipOrIncrement : Obligations.NextPcIsTargetSkipOrIncrement := by
  intro i s t h _ hfault
  rcases exec_next_cases h with ⟨-, rfl⟩ | ⟨kind, -, rfl⟩
  · cases i with
    | jp | call | ret | ldVxK => rfl
    | jpV0 a => exact zextAddr_add_zextByte_toNat a (s.readV 0)
    | seImm | sneImm | seReg | sneReg | skp | sknp => exact word_skip_toNat _ _
    | _ => exact word_add_two_toNat s.pc
  · cases hfault

/-! ### State an instruction neither reads nor writes -/

/-- An update of the state that an instruction's checks and its completion do not see: with the update before it, the
instruction does the same and leaves the update. -/
theorem exec_commutes {i : Instr} {s : State} {f : State → State} (hs : (f s).stops i = s.stops i)
    (ht : (f s).trap i = s.trap i) (hc : (f s).completed i = f (s.completed i))
    (hr : ∀ kind op, (f s).raise kind op = f (s.raise kind op)) :
    exec i (f s) = Result.andThen (exec i s) fun t => .next (f t) := by
  rw [exec_eq_answer, exec_eq_answer, State.answer, State.answer, hs, ht, hc]
  split
  · rfl
  · split
    · rfl
    · rw [hr]
      rfl

/-- The state with another call stack. -/
def State.withStack (s : State) (p : Byte) (q : Vector Word 16) : State := { s with sp := p, stack := q }

theorem exec_withStack {i : Instr} {s t : State} (hcall : ∀ a, i ≠ .call a) (hret : i ≠ .ret)
    (h : exec i s = .next t) (p : Byte) (q : Vector Word 16) :
    exec i (s.withStack p q) = .next (t.withStack p q) := by
  have hcommutes : exec i (s.withStack p q) = Result.andThen (exec i s) fun t => .next (t.withStack p q) := by
    cases i with
    | call a => exact absurd rfl (hcall a)
    | ret => exact absurd rfl hret
    | _ => exact exec_commutes (f := fun s => s.withStack p q) rfl rfl rfl fun _ _ => rfl
  rw [hcommutes, h]
  rfl

/-- Settles O18: the frame is that of O19, and another `sp` or other entries are another call stack. -/
theorem onlyCallAndRetUseTheStackPointer : Obligations.OnlyCallAndRetUseTheStackPointer := by
  intro i s t hcall hret h
  obtain ⟨-, -, hsp, hstack, -⟩ := stateIsWrittenOnlyByItsWriters i s t h
  specialize hsp hcall hret
  specialize hstack hcall
  refine ⟨hsp, hstack, fun p => ?_, fun q => ?_⟩
  · calc exec i (s.withStack p s.stack) = .next (t.withStack p s.stack) := exec_withStack hcall hret h p s.stack
      _ = .next (t.withStack p t.stack) := by rw [hstack]
  · calc exec i (s.withStack s.sp q) = .next (t.withStack s.sp q) := exec_withStack hcall hret h s.sp q
      _ = .next (t.withStack t.sp q) := by rw [hsp]

/-- The state with another memory. -/
def State.withMem (s : State) (m : Memory) : State := { s with mem := m }

/-- Settles O21: the checks and the completion of the other instructions do not see the memory. -/
theorem otherInstructionsIgnoreMemory : Obligations.OtherInstructionsIgnoreMemory := by
  intro i s t m hdrw hldB hstore hload h
  have hcommutes : exec i (s.withMem m) = Result.andThen (exec i s) fun t => .next (t.withMem m) := by
    cases i with
    | drw x y n => exact absurd rfl (hdrw x y n)
    | ldBVx x => exact absurd rfl (hldB x)
    | ldMemVx x => exact absurd rfl (hstore x)
    | ldVxMem x => exact absurd rfl (hload x)
    | _ => exact exec_commutes (f := fun s => s.withMem m) rfl rfl rfl fun _ _ => rfl
  rw [h] at hcommutes
  exact hcommutes

end Sys2Proof.Machine
end

section
/-! Decoding the encoded words, and the opcode table as masks and match values (30_encoding.md R71 to R79). -/

namespace Sys2Proof

/-! ### Decode of encode -/

/-- R75: the operands SYS leaves to CLS and RET are those whose words are theirs. -/
theorem encodeAddr_zero_ne {nnn a : Addr12} (h : nnn ≠ a) : encodeAddr 0#4 nnn ≠ encodeAddr 0#4 a := fun e =>
  h (by rw [← fieldNNN_encodeAddr 0#4 nnn, e, fieldNNN_encodeAddr])

theorem decode_encode_sys {nnn : Addr12} (h : sysOperandOk nnn = true) :
    decode (encode (.sys nnn)) = .ok (.sys nnn) := by
  obtain ⟨hcls, hret⟩ : nnn ≠ 0x0E0 ∧ nnn ≠ 0x0EE := by simpa [sysOperandOk] using h
  rw [encode, decode_of_class_zero (fieldClass_encodeAddr 0#4 nnn),
    decodeClass0_of_ne (encodeAddr_zero_ne hcls) (encodeAddr_zero_ne hret), fieldNNN_encodeAddr]

/-- The dispatch of R74 reads the class and the sub-opcode back from the encoded word, and the operands with them. -/
theorem decode_encode {i : Instr} (h : i.wellFormed = true) : decode (encode i) = .ok i := by
  cases i with
  | cls | ret => decide
  | sys nnn => exact decode_encode_sys h
  | seReg | sneReg => simp [encode, decode, decodeZeroNibble]
  | ldReg | orReg | andReg | xorReg | addReg | subReg | shr | subnReg | shl => simp [encode, decode, decodeClass8]
  | skp | sknp => simp [encode, decode, decodeClassE]
  | ldVxDt | ldVxK | ldDtVx | ldStVx | addIVx | ldFVx | ldBVx | ldMemVx | ldVxMem =>
    simp [encode, decode, decodeClassF]
  | _ => simp [encode, decode]

/-- Settles O1: `decode_encode`. -/
theorem decodeOfEncodeIsTheInstruction : Obligations.DecodeOfEncodeIsTheInstruction := fun _ h => decode_encode h

/-! ### Every word -/

/-- A decoded SYS is none of the two words that are not SYS, so its operand is well-formed. -/
theorem wellFormed_of_decode {op : Word} {i : Instr} (h : decode op = .ok i) : i.wellFormed = true := by
  cases i with
  | sys nnn =>
    have hop : encode (.sys nnn) = op := encode_of_decode h
    have hne : nnn ≠ 0x0E0 ∧ nnn ≠ 0x0EE := by
      constructor <;> rintro rfl <;> subst hop <;> exact absurd h (by decide)
    simpa [Instr.wellFormed, sysOperandOk] using hne
  | _ => rfl

/-- Settles O2: a decoded word is its instruction's, and a refusal names the word. -/
theorem everyWordIsOneInstructionOrIllegal : Obligations.EveryWordIsOneInstructionOrIllegal := by
  intro op
  cases h : decode op with
  | ok i => exact .inl ⟨i, rfl, wellFormed_of_decode h, encode_of_decode h⟩
  | error e => exact .inr (by rw [decode_error h])

/-! ### The rows of R76 -/

theorem row_mem_opcodeTable (i : Instr) : i.row ∈ opcodeTable := by
  cases i <;> simp [opcodeTable, rowExamplesLow, rowExamplesHigh, Instr.row]

theorem row_fits_encode (i : Instr) : i.row.fits (encode i) = true := by
  cases i with
  | cls | ret => decide
  | sys | jp | call | ldI | jpV0 => exact Laws.RowMatch.fits_of_mask (encodeAddr_mask _ _)
  | seImm | sneImm | ldImm | addImm | rnd => exact Laws.RowMatch.fits_of_mask (encodeXKK_mask_class _ _ _)
  | drw => exact Laws.RowMatch.fits_of_mask (encodeXYN_mask_class _ _ _ _)
  | seReg | sneReg | ldReg | orReg | andReg | xorReg | addReg | subReg | shr | subnReg | shl =>
    exact Laws.RowMatch.fits_of_mask (encodeXYN_mask_sub _ _ _ _)
  | _ => exact Laws.RowMatch.fits_of_mask (encodeXKK_mask_sub _ _ _)

section
variable {op : Word} {c n : Nibble} {kk : Byte}

theorem eq_encodeAddr_of_fits (h : OpcodeRow.fits ⟨encodeAddr c 0, 0xF000⟩ op = true) :
    encodeAddr c (fieldNNN op) = op := by
  have hmask : op &&& 0xF000 = encodeAddr c 0 := by simpa [OpcodeRow.fits] using h
  rw [← encodeAddr_fields op, encodeAddr_mask] at hmask
  have hclass := congrArg fieldClass hmask
  rw [fieldClass_encodeAddr, fieldClass_encodeAddr] at hclass
  exact encodeAddr_of_class (congrArg BitVec.toNat hclass)

theorem eq_encodeXKK_of_fits_class (h : OpcodeRow.fits ⟨encodeAddr c 0, 0xF000⟩ op = true) :
    encodeXKK c (fieldX op) (fieldKK op) = op := by
  rw [← eq_encodeAddr_of_fits h]
  exact encodeXKK_of_class (by rw [fieldClass_encodeAddr])

theorem eq_encodeXYN_of_fits_class (h : OpcodeRow.fits ⟨encodeAddr c 0, 0xF000⟩ op = true) :
    encodeXYN c (fieldX op) (fieldY op) (fieldN op) = op := by
  rw [← eq_encodeAddr_of_fits h]
  exact encodeXYN_of_class (by rw [fieldClass_encodeAddr])

theorem eq_encodeXKK_of_fits_sub (h : OpcodeRow.fits ⟨encodeXKK c 0 kk, 0xF0FF⟩ op = true) :
    encodeXKK c (fieldX op) kk = op := by
  have hmask : op &&& 0xF0FF = encodeXKK c 0 kk := by simpa [OpcodeRow.fits] using h
  rw [← encodeXKK_fields op, encodeXKK_mask_sub] at hmask
  have hclass := congrArg fieldClass hmask
  have hsub := congrArg fieldKK hmask
  rw [fieldClass_encodeXKK, fieldClass_encodeXKK] at hclass
  rw [fieldKK_encodeXKK, fieldKK_encodeXKK] at hsub
  exact encodeXKK_of_sub (congrArg BitVec.toNat hclass) (congrArg BitVec.toNat hsub)

theorem eq_encodeXYN_of_fits_sub (h : OpcodeRow.fits ⟨encodeXYN c 0 0 n, 0xF00F⟩ op = true) :
    encodeXYN c (fieldX op) (fieldY op) n = op := by
  have hmask : op &&& 0xF00F = encodeXYN c 0 0 n := by simpa [OpcodeRow.fits] using h
  rw [← encodeXYN_fields op, encodeXYN_mask_sub] at hmask
  have hclass := congrArg fieldClass hmask
  have hsub := congrArg fieldN hmask
  rw [fieldClass_encodeXYN, fieldClass_encodeXYN] at hclass
  rw [fieldN_encodeXYN, fieldN_encodeXYN] at hsub
  exact encodeXYN_of_sub (congrArg BitVec.toNat hclass) (congrArg BitVec.toNat hsub)

end

/-- The instruction of the same row with the fields of a word. -/
def Instr.withFieldsOf (i : Instr) (op : Word) : Instr :=
  match i with
  | .cls => .cls
  | .ret => .ret
  | .sys _ => .sys (fieldNNN op)
  | .jp _ => .jp (fieldNNN op)
  | .call _ => .call (fieldNNN op)
  | .seImm _ _ => .seImm (fieldX op) (fieldKK op)
  | .sneImm _ _ => .sneImm (fieldX op) (fieldKK op)
  | .seReg _ _ => .seReg (fieldX op) (fieldY op)
  | .ldImm _ _ => .ldImm (fieldX op) (fieldKK op)
  | .addImm _ _ => .addImm (fieldX op) (fieldKK op)
  | .ldReg _ _ => .ldReg (fieldX op) (fieldY op)
  | .orReg _ _ => .orReg (fieldX op) (fieldY op)
  | .andReg _ _ => .andReg (fieldX op) (fieldY op)
  | .xorReg _ _ => .xorReg (fieldX op) (fieldY op)
  | .addReg _ _ => .addReg (fieldX op) (fieldY op)
  | .subReg _ _ => .subReg (fieldX op) (fieldY op)
  | .shr _ _ => .shr (fieldX op) (fieldY op)
  | .subnReg _ _ => .subnReg (fieldX op) (fieldY op)
  | .shl _ _ => .shl (fieldX op) (fieldY op)
  | .sneReg _ _ => .sneReg (fieldX op) (fieldY op)
  | .ldI _ => .ldI (fieldNNN op)
  | .jpV0 _ => .jpV0 (fieldNNN op)
  | .rnd _ _ => .rnd (fieldX op) (fieldKK op)
  | .drw _ _ _ => .drw (fieldX op) (fieldY op) (fieldN op)
  | .skp _ => .skp (fieldX op)
  | .sknp _ => .sknp (fieldX op)
  | .ldVxDt _ => .ldVxDt (fieldX op)
  | .ldVxK _ => .ldVxK (fieldX op)
  | .ldDtVx _ => .ldDtVx (fieldX op)
  | .ldStVx _ => .ldStVx (fieldX op)
  | .addIVx _ => .addIVx (fieldX op)
  | .ldFVx _ => .ldFVx (fieldX op)
  | .ldBVx _ => .ldBVx (fieldX op)
  | .ldMemVx _ => .ldMemVx (fieldX op)
  | .ldVxMem _ => .ldVxMem (fieldX op)

theorem row_withFieldsOf (i : Instr) (op : Word) : (i.withFieldsOf op).row = i.row := by cases i <;> rfl

/-- R76: a word that fits a row is the word of an instruction of the row. -/
theorem encode_withFieldsOf_of_fits {i : Instr} {op : Word} (h : i.row.fits op = true) :
    encode (i.withFieldsOf op) = op := by
  cases i with
  | cls | ret =>
    have hmask : op &&& BitVec.allOnes 16 = _ := of_decide_eq_true h
    rw [BitVec.and_allOnes] at hmask
    exact hmask.symm
  | sys | jp | call | ldI | jpV0 => exact eq_encodeAddr_of_fits h
  | seImm | sneImm | ldImm | addImm | rnd => exact eq_encodeXKK_of_fits_class h
  | drw => exact eq_encodeXYN_of_fits_class h
  | seReg | sneReg | ldReg | orReg | andReg | xorReg | addReg | subReg | shr | subnReg | shl =>
    exact eq_encodeXYN_of_fits_sub h
  | _ => exact eq_encodeXKK_of_fits_sub h

/-- R75: of the words that fit a row only 0x00E0 and 0x00EE, which fit the row of SYS, decode to another row's. -/
theorem exists_decode_of_fits {op : Word} {r : OpcodeRow} (hr : r ∈ opcodeTable) (hfits : r.fits op = true) :
    ∃ i, decode op = .ok i ∧ (i.row = r ∨ (r = ⟨0x0000, 0xF000⟩ ∧ (op = 0x00E0 ∨ op = 0x00EE))) := by
  obtain ⟨j, -, rfl⟩ := List.mem_map.mp hr
  have hop := encode_withFieldsOf_of_fits hfits
  have hrow := row_withFieldsOf j op
  generalize j.withFieldsOf op = i at hop hrow
  subst hop
  by_cases hwf : i.wellFormed = true
  · exact ⟨i, decode_encode hwf, .inl hrow⟩
  · cases i with
    | sys nnn =>
      have hnnn : nnn = 0x0E0 ∨ nnn = 0x0EE := by
        by_contra hne
        exact hwf (by simpa [Instr.wellFormed, sysOperandOk] using hne)
      rcases hnnn with rfl | rfl
      · exact ⟨.cls, by decide, .inr ⟨hrow.symm, .inl (by decide)⟩⟩
      · exact ⟨.ret, by decide, .inr ⟨hrow.symm, .inr (by decide)⟩⟩
    | _ => exact absurd rfl hwf

/-- Settles O3: two rows that one word fits are both the row of the instruction it decodes to. -/
theorem decodingFollowsTheOpcodeTable : Obligations.DecodingFollowsTheOpcodeTable := by
  refine ⟨rfl, ?_, fun op r hr => exists_decode_of_fits hr, ?_⟩
  · intro op i h
    have hfits := row_fits_encode i
    rw [encode_of_decode h] at hfits
    exact ⟨row_mem_opcodeTable i, hfits⟩
  · intro op r q hr hq hrfits hqfits
    obtain ⟨i, hi, hri⟩ := exists_decode_of_fits hr hrfits
    obtain ⟨j, hj, hqj⟩ := exists_decode_of_fits hq hqfits
    cases hi.symm.trans hj
    rcases hri with hri | ⟨-, hspecial⟩
    · rcases hqj with hqj | ⟨-, hspecial⟩
      · exact .inl (hri.symm.trans hqj)
      · exact .inr hspecial
    · exact .inr hspecial

end Sys2Proof
end

section
/-! The words that are no instruction (30_encoding.md R77): the decoder's refusals, class by class, and what executing
such a word does. -/

namespace Sys2Proof.Machine

/-! ### The illegal words (R77) -/

theorem fieldClass_toNat (op : Word) : (fieldClass op).toNat = op.toNat / 4096 := by
  have hop := op.isLt
  rw [fieldClass, BitVec.extractLsb'_toNat, Nat.shiftRight_eq_div_pow]
  omega

theorem fieldN_toNat (op : Word) : (fieldN op).toNat = op.toNat % 16 := BitVec.extractLsb'_toNat ..

theorem fieldKK_toNat (op : Word) : (fieldKK op).toNat = op.toNat % 256 := BitVec.extractLsb'_toNat ..

theorem illegalWord_iff_fields (op : Word) :
    IllegalWord op ↔ IllegalFields (fieldClass op).toNat (fieldN op).toNat (fieldKK op).toNat := by
  rw [IllegalWord, fieldClass_toNat, fieldN_toNat, fieldKK_toNat]

theorem decodeZeroNibble_error_iff (op : Word) (i : Instr) :
    decodeZeroNibble op i = .error (.illegalOpcode op) ↔ (fieldN op).toNat ≠ 0 := by
  unfold decodeZeroNibble
  split
  next h => simp [h]
  next h => simpa [← BitVec.toNat_inj] using h

theorem decodeClass8_error_iff (op : Word) :
    decodeClass8 op = .error (.illegalOpcode op) ↔ (fieldN op).toNat ∈ [8, 9, 0xA, 0xB, 0xC, 0xD, 0xF] := by
  have hlt := (fieldN op).isLt
  unfold decodeClass8
  generalize (fieldN op).toNat = n at *
  interval_cases n <;> simp

theorem decodeClassE_error_iff (op : Word) :
    decodeClassE op = .error (.illegalOpcode op) ↔ (fieldKK op).toNat ∉ [0x9E, 0xA1] := by
  unfold decodeClassE
  split <;> simp_all

theorem decodeClassF_error_iff (op : Word) :
    decodeClassF op = .error (.illegalOpcode op) ↔
      (fieldKK op).toNat ∉ [0x07, 0x0A, 0x15, 0x18, 0x1E, 0x29, 0x33, 0x55, 0x65] := by
  unfold decodeClassF
  split <;> simp_all

/-- R77: the decoder refuses a word exactly on the condition of its class. -/
theorem decode_error_iff (op : Word) : decode op = .error (.illegalOpcode op) ↔ IllegalWord op := by
  have hlt := (fieldClass op).isLt
  rw [illegalWord_iff_fields]
  unfold decode IllegalFields
  split
  next hc => simp [hc]
  next hc => simp [hc]
  next hc => simp [hc]
  next hc => simp [hc]
  next hc => simp [hc]
  next hc => simp [hc, decodeZeroNibble_error_iff]
  next hc => simp [hc]
  next hc => simp [hc]
  next hc => simp [hc, decodeClass8_error_iff]
  next hc => simp [hc, decodeZeroNibble_error_iff]
  next hc => simp [hc]
  next hc => simp [hc]
  next hc => simp [hc]
  next hc => simp [hc]
  next hc => simp [hc, decodeClassE_error_iff]
  next =>
    have hc : (fieldClass op).toNat = 0xF := by simp only [imp_false] at *; omega
    simp [hc, decodeClassF_error_iff]

/-- Settles O5: the condition is the decoder's, and the step of a refused word is fault entry alone. -/
theorem illegalWordsAreExactlyTheListedOnes : Obligations.IllegalWordsAreExactlyTheListedOnes := by
  refine ⟨decode_error_iff, fun s op hruns hfetch hillegal => ?_⟩
  have hdecode := (decode_error_iff op).mpr hillegal
  rcases step_cases hruns with ⟨hf, -⟩ | ⟨w, hf, -, hstep⟩ | ⟨w, i, hf, hd, -⟩
  · exact absurd (hfetch.symm.trans hf) nofun
  · cases hfetch.symm.trans hf
    exact ⟨_, hstep, rfl, s.onlyChanges_raise _ _⟩
  · cases hfetch.symm.trans hf
    exact absurd (hdecode.symm.trans hd) nofun

/-! ### Sample words (R72, R76) -/

/-- Settles O6: each word is decoded. -/
theorem sampleWordsDecode : Obligations.SampleWordsDecode := by
  refine ⟨?_, ?_, ?_, ?_, ?_, ?_, ?_, ?_⟩ <;> decide

end Sys2Proof.Machine
end

section
/-! The step (40_control_flow.md R100) and what it keeps: the instruction at pc, steps that change nothing, and the
invariant of the machine, from reset through every step and every host event. -/

namespace Sys2Proof.Machine

/-! ### A step of a core that executes -/

/-- Settles O7: fetch takes the two bytes at pc, and the decoded instruction is executed. -/
theorem stepRunsTheDecodedInstruction : Obligations.StepRunsTheDecodedInstruction := by
  intro s i hruns hpc hdecode
  have hfetch := State.fetch_of_pc_le hpc
  rcases step_cases hruns with ⟨hf, -⟩ | ⟨op, hf, hd, -⟩ | ⟨op, j, hf, hd, hstep⟩
  · exact absurd (hfetch.symm.trans hf) nofun
  · cases hfetch.symm.trans hf
    exact absurd (hdecode.symm.trans hd) nofun
  · cases hfetch.symm.trans hf
    cases hdecode.symm.trans hd
    exact hstep

/-- A step that goes on is fault entry with the fetched word, or completes the instruction of the fetched word, whose
checks pass. -/
theorem step_next_of_runs {s t : State} (hruns : s.Runs) (h : step s = .next t) :
    (∃ kind, kind ≠ .programTooLarge ∧ t = s.raise kind s.fetch) ∨
    (∃ i, s.fetch = some (encode i) ∧ s.trap i = none ∧ t = s.completed i) := by
  rcases step_cases hruns with ⟨hf, hstep⟩ | ⟨op, hf, -, hstep⟩ | ⟨op, i, hf, hd, hstep⟩
  · cases hstep.symm.trans h
    exact .inl ⟨.memoryOutOfRange, by decide, by rw [hf]⟩
  · cases hstep.symm.trans h
    exact .inl ⟨.illegalOpcode, by decide, by rw [hf]⟩
  · rw [← encode_of_decode hd] at hf
    rcases exec_next_cases (hstep.symm.trans h) with ⟨htrap, rfl⟩ | ⟨kind, htrap, rfl⟩
    · exact .inr ⟨i, hf, htrap, rfl⟩
    · refine .inl ⟨kind, ?_, by rw [hf]⟩
      rintro rfl
      exact s.trap_ne_programTooLarge i htrap

/-! ### Steps that change nothing -/

theorem step_of_idle {s : State} {r : StepReport} (h : s.idle = some r) :
    step s = .next s ∧ stepReport s = some r := by
  simp [step, stepReport, h]

/-- Settles O9: `idle` names the reason in R100's order. -/
theorem haltedPausedAndWaitingStepsChangeNothing : Obligations.HaltedPausedAndWaitingStepsChangeNothing := by
  intro s
  refine ⟨fun hfault => step_of_idle ?_, fun hfault hpaused => step_of_idle ?_,
    fun hfault hpaused hwait => step_of_idle ?_⟩
  · simp [State.idle, Option.isSome_iff_ne_none.mpr hfault]
  · simp [State.idle, hfault, hpaused]
  · simp [State.idle, hfault, hpaused, Option.isSome_iff_ne_none.mpr hwait]

/-! ### Every step goes on (10_state.md R25) -/

theorem step_goes_on {s : State} (h : s.sp.toNat ≤ 16) : ∃ t, step s = .next t := by
  by_cases hruns : s.Runs
  · rcases step_cases hruns with ⟨-, hstep⟩ | ⟨op, -, -, hstep⟩ | ⟨op, i, -, -, hstep⟩
    · exact ⟨_, hstep⟩
    · exact ⟨_, hstep⟩
    · rw [hstep]
      exact exec_goes_on i h
  · exact ⟨s, step_of_not_runs hruns⟩

/-- Settles O13: `step_goes_on`. -/
theorem stepAlwaysGoesOn : Obligations.StepAlwaysGoesOn := fun _ => step_goes_on

/-! ### The invariant -/

/-- Settles O14: memory is empty, `sp` is 0, and there is no wait and no fault. -/
theorem resetSatisfiesTheInvariant : Obligations.ResetSatisfiesTheInvariant where
  mem_wf := State.reset_mem_wf
  sp_le := by decide
  wait_at := nofun
  fault_not_waiting := fun _ => rfl
  fault_precise := nofun
  fault_kind := nofun

/-- The invariant speaks of memory, pc, `sp`, `wait` and `fault` only. -/
theorem State.Inv.congr {s t : State} (h : s.Inv) (hmem : t.mem = s.mem) (hpc : t.pc = s.pc) (hsp : t.sp = s.sp)
    (hwait : t.wait = s.wait) (hfault : t.fault = s.fault) : t.Inv := by
  have hfetch : t.fetch = s.fetch := State.fetch_congr (fun a => by rw [hmem]) hpc
  constructor
  · rw [hmem]; exact h.mem_wf
  · rw [hsp]; exact h.sp_le
  · rw [hwait, hfetch]; exact h.wait_at
  · rw [hwait, hfault]; exact h.fault_not_waiting
  · rw [hfault, hpc, hfetch]; exact h.fault_precise
  · rw [hfault]; exact h.fault_kind

/-- A core that neither waits nor is faulted meets the invariant when memory and `sp` do. -/
theorem State.Inv.of_active {s : State} (hmem : s.mem.wf) (hsp : s.sp.toNat ≤ 16) (hwait : s.wait = none)
    (hfault : s.fault = none) : s.Inv := by
  constructor
  · exact hmem
  · exact hsp
  · simp [hwait]
  · simp [hwait]
  · simp [hfault]
  · simp [hfault]

/-- R232: fault entry with the fetched word on a core that executes. -/
theorem State.Inv.raise {s : State} (h : s.Inv) (hruns : s.Runs) {kind : FaultKind} (hkind : kind ≠ .programTooLarge) :
    (s.raise kind s.fetch).Inv := by
  obtain ⟨-, -, hwait⟩ := hruns
  constructor
  · exact h.mem_wf
  · exact h.sp_le
  · rw [State.raise_wait, hwait]; exact nofun
  · exact fun _ => hwait
  · rintro r ⟨⟩
    exact ⟨rfl, rfl⟩
  · rintro r ⟨⟩
    exact hkind

theorem State.inRange_of_trap_none {s : State} {i : Instr} {base n : Nat} {kind : FaultKind}
    (ht : s.trap i = if accessInRange base (n + 1) then none else some kind) (h : s.trap i = none) :
    base + (n + 1) ≤ memSize := by
  rw [ht] at h
  have hin : accessInRange base (n + 1) = true := by
    by_contra hout
    exact absurd ((if_neg hout).symm.trans h) nofun
  exact (accessInRange_iff.mp hin).resolve_left (Nat.succ_ne_zero n)

/-- A completed instruction keeps the canonical form: a store in range does, and the others leave memory. -/
theorem State.completed_mem_wf {s : State} {i : Instr} (h : s.mem.wf) (htrap : s.trap i = none) :
    (s.completed i).mem.wf := by
  cases i with
  | ldBVx x => exact Memory.wf_writeBlock h (State.inRange_of_trap_none (n := 2) rfl htrap)
  | ldMemVx x =>
    refine Memory.wf_writeBlock h ?_
    rw [s.readVs_length]
    exact State.inRange_of_trap_none rfl htrap
  | _ => exact h

/-- A completed CALL had `sp` below 16, a completed RET had it above 0. -/
theorem State.completed_sp_le {s : State} {i : Instr} (h : s.sp.toNat ≤ 16) (htrap : s.trap i = none) :
    (s.completed i).sp.toNat ≤ 16 := by
  cases i with
  | call nnn =>
    have hne : s.sp.toNat ≠ 16 := fun heq => absurd ((if_pos heq).symm.trans htrap) nofun
    exact (State.push_sp_toNat (s.pc + 2) (Nat.lt_of_le_of_ne h hne)).le.trans (by omega)
  | ret =>
    have hne : s.sp.toNat ≠ 0 := fun heq => absurd ((if_pos heq).symm.trans htrap) nofun
    exact (State.pop_sp_toNat (Nat.pos_of_ne_zero hne)).le.trans (by omega)
  | _ => exact h

/-- R206: a wait started by the Fx0A at pc. -/
theorem State.Inv.withWait {s : State} {x : Reg} (h : s.Inv) (hfault : s.fault = none)
    (hfetch : s.fetch = some (encode (.ldVxK x))) : State.Inv { s with wait := some x } := by
  constructor
  · exact h.mem_wf
  · exact h.sp_le
  · rintro y ⟨⟩
    exact hfetch
  · exact fun hne => absurd hfault hne
  · exact h.fault_precise
  · exact h.fault_kind

/-- Only Fx0A starts a wait, and completing records no fault. -/
theorem State.Inv.completed {s : State} {i : Instr} (h : s.Inv) (hruns : s.Runs) (hfetch : s.fetch = some (encode i))
    (htrap : s.trap i = none) : (s.completed i).Inv := by
  obtain ⟨hfault, -, hwait⟩ := hruns
  by_cases hldVxK : ∃ x, i = .ldVxK x
  · obtain ⟨x, rfl⟩ := hldVxK
    exact h.withWait hfault hfetch
  · exact .of_active (State.completed_mem_wf h.mem_wf htrap) (State.completed_sp_le h.sp_le htrap)
      ((s.completed_wait fun x hi => hldVxK ⟨x, hi⟩).trans hwait) ((s.completed_fault i).trans hfault)

/-- Settles O15: a step changes nothing, or is fault entry with the fetched word, or completes the instruction at pc. -/
theorem stepKeepsTheInvariant : Obligations.StepKeepsTheInvariant := by
  intro s t hinv h
  by_cases hruns : s.Runs
  · rcases step_next_of_runs hruns h with ⟨kind, hkind, rfl⟩ | ⟨i, hfetch, htrap, rfl⟩
    · exact hinv.raise hruns hkind
    · exact hinv.completed hruns hfetch htrap
  · cases (step_of_not_runs hruns).symm.trans h
    exact hinv

theorem step_keeps_inv {s : State} (h : s.Inv) : ∃ t, step s = .next t ∧ t.Inv := by
  obtain ⟨t, hstep⟩ := step_goes_on h.sp_le
  exact ⟨t, hstep, stepKeepsTheInvariant s t h hstep⟩

/-! ### The scheduler keeps the invariant (60_exceptions.md R245, R247) -/

theorem andThen_keeps_inv {r : Result} {f : State → Result} (hr : ∃ t, r = .next t ∧ t.Inv)
    (hf : ∀ t : State, t.Inv → ∃ u, f t = .next u ∧ u.Inv) : ∃ u, Result.andThen r f = .next u ∧ u.Inv := by
  obtain ⟨t, rfl, ht⟩ := hr
  exact hf t ht

theorem runBudget_keeps_inv (k : Nat) {s : State} (h : s.Inv) : ∃ t, runBudget k s = .next t ∧ t.Inv := by
  induction k generalizing s with
  | zero => exact ⟨s, rfl, h⟩
  | succ n ih =>
    unfold runBudget
    split
    next => exact ⟨s, rfl, h⟩
    next => exact andThen_keeps_inv (step_keeps_inv h) fun _ => ih

theorem frame_keeps_inv (c : Config) {s : State} (h : s.Inv) : ∃ t, frame c s = .next t ∧ t.Inv := by
  have htick : (s.frameTick c).Inv :=
    h.congr (s.frameTick_mem c) (s.frameTick_pc c) (s.frameTick_sp c) (s.frameTick_wait c) (s.frameTick_fault c)
  unfold frame
  split
  next => exact ⟨s, rfl, h⟩
  next => exact runBudget_keeps_inv c.ipt htick

theorem State.Inv.withLag {s : State} (h : s.Inv) (l : Nat) : State.Inv { s with lag := l } := h.congr rfl rfl rfl rfl rfl

theorem runFrames_keeps_inv (c : Config) (k : Nat) {s : State} (h : s.Inv) :
    ∃ t, runFrames c k s = .next t ∧ t.Inv := by
  induction k generalizing s with
  | zero => exact ⟨s, rfl, h⟩
  | succ n ih => exact andThen_keeps_inv (frame_keeps_inv c (h.withLag _)) fun _ => ih

/-! ### The other events keep the invariant -/

theorem State.Inv.setKey {s : State} (h : s.Inv) (k : Key) (b : Bool) : (s.setKey k b).Inv := h.congr rfl rfl rfl rfl rfl

theorem State.Inv.captured {s : State} (h : s.Inv) (hfault : s.fault = none) (x : Reg) (k : Key) :
    (s.captured x k).Inv := .of_active h.mem_wf h.sp_le rfl hfault

/-- A key that goes down completes a capture, or no capture can be completed. -/
theorem State.keyDown_cases (s : State) (k : Key) :
    (∃ x, s.wait = some x ∧ s.paused = false ∧ s.fault = none ∧ s.keyDown? k = false ∧
      s.keyDown k = (s.setKey k true).captured x k) ∨
    s.keyDown k = s.setKey k true := by
  by_cases h : s.wait = none ∨ s.paused = true ∨ s.fault ≠ none ∨ s.keyDown? k = true
  · exact .inr (State.keyDown_of_no_capture h)
  · obtain ⟨hwait, hpaused, hfault, hup⟩ :
        s.wait ≠ none ∧ s.paused = false ∧ s.fault = none ∧ s.keyDown? k = false := by simpa using h
    obtain ⟨x, hx⟩ := Option.ne_none_iff_exists'.mp hwait
    exact .inl ⟨x, hx, hpaused, hfault, hup, State.keyDown_of_capture hx hpaused hfault hup⟩

theorem State.Inv.keyDown {s : State} (h : s.Inv) (k : Key) : (s.keyDown k).Inv := by
  rcases s.keyDown_cases k with ⟨x, -, -, hfault, -, he⟩ | he
  · rw [he]
    exact (h.setKey k true).captured hfault x k
  · rw [he]
    exact h.setKey k true

theorem State.Inv.load {c : Config} {rom : List Byte} {s t : State} (h : s.load c rom = .ok t) : t.Inv := by
  rcases Nat.lt_or_ge maxRom rom.length with hlong | hfits
  · cases (s.load_of_too_long c hlong).symm.trans h
  · cases (s.load_of_fits c hfits).symm.trans h
    exact .of_active (loadedMemory_wf c hfits) (Nat.zero_le 16) rfl rfl

theorem reply_keeps_inv {r : Result} (h : ∃ t, r = .next t ∧ t.Inv) : ∃ t q, r.reply = .next (t, q) ∧ t.Inv := by
  obtain ⟨t, rfl, ht⟩ := h
  exact ⟨t, .done, rfl, ht⟩

theorem withKey_of_le {k : Nat} (h : k ≤ 15) (f : Key → State) : withKey k f = .next (f (fin16 k), .done) := if_pos h

theorem withKey_of_gt {k : Nat} (h : 15 < k) (f : Key → State) : withKey k f = .refused (.notAnEvent k) :=
  if_neg (Nat.not_le.mpr h)

/-- Settles O16: each event is answered with a state that keeps the invariant, but a key number above 15. -/
theorem eventsKeepTheInvariant : Obligations.EventsKeepTheInvariant := by
  intro c e s h
  cases e with
  | load rom =>
    cases hload : s.load c rom with
    | ok t => exact .inl ⟨t, _, applyEvent_load_of_ok hload, .load hload⟩
    | error kind => exact .inl ⟨s, _, applyEvent_load_of_error hload, h⟩
  | frame => exact .inl (reply_keeps_inv (frame_keeps_inv c h))
  | advance elapsed => exact .inl (reply_keeps_inv (runFrames_keeps_inv c _ (h.withLag _)))
  | keyDown k =>
    rcases Nat.lt_or_ge 15 k with hgt | hle
    · exact .inr ⟨k, hgt, .inl rfl, withKey_of_gt hgt _⟩
    · exact .inl ⟨_, _, withKey_of_le hle _, h.keyDown _⟩
  | keyUp k =>
    rcases Nat.lt_or_ge 15 k with hgt | hle
    · exact .inr ⟨k, hgt, .inr rfl, withKey_of_gt hgt _⟩
    · exact .inl ⟨_, _, withKey_of_le hle _, h.setKey _ _⟩
  | pauseToggle => exact .inl ⟨_, _, rfl, h.congr rfl rfl rfl rfl rfl⟩

theorem reachable_inv {c : Config} {s : State} (h : Reachable c s) : s.Inv := by
  induction h with
  | reset => exact resetSatisfiesTheInvariant
  | step _ hstep ih => exact stepKeepsTheInvariant _ _ ih hstep
  | event _ he ih =>
    rcases eventsKeepTheInvariant c _ _ ih with ⟨t, r, he', ht⟩ | ⟨k, -, -, he'⟩
    · cases he'.symm.trans he
      exact ht
    · cases he'.symm.trans he

/-- Settles O17: the invariant holds at reset and is kept, and under it every step goes on. -/
theorem reachableStatesGoOn : Obligations.ReachableStatesGoOn := fun _ _ h =>
  ⟨reachable_inv h, step_goes_on (reachable_inv h).sp_le⟩

end Sys2Proof.Machine
end

section
/-! Two instructions in a row, and an instruction and the next fetch: CALL and RET (40_control_flow.md R105, R106), a
block stored and loaded back (42_index_memory.md R166) or fetched (20_memory.md R60), a sprite drawn twice
(43_display.md R184); and the random byte (41_alu.md R148). -/

namespace Sys2Proof.Machine

/-! ### CALL, then RET -/

/-- The entry CALL pushed is the one RET reads. -/
theorem State.stackTop_push_jumpTo {s : State} (ret target : Word) (h : s.sp.toNat < 16) :
    ((s.push ret).jumpTo target).stackTop = ret := by
  have htop : ((s.push ret).jumpTo target).stackTop = (s.push ret).stackEntry (fin16 ((s.push ret).sp.toNat - 1)) := rfl
  rw [htop, State.push_sp_toNat ret h, Nat.add_sub_cancel, State.stackEntry_push, if_pos rfl]

/-- Settles O27: the push and the pop of one entry; `sp` is as before. -/
theorem retComesBackFromCall : Obligations.RetComesBackFromCall := by
  intro nnn s hsp
  have hpush : ((s.push (s.pc + 2)).jumpTo (zextAddr nnn)).sp.toNat = s.sp.toNat + 1 :=
    State.push_sp_toNat (s.pc + 2) hsp
  refine ⟨_, _, exec_call_of_sp_lt nnn hsp, exec_ret_of_sp_pos (by omega) (by omega),
    State.stackTop_push_jumpTo _ _ hsp, fun p hp => ?_⟩
  by_cases hpsp : p = .sp
  · subst hpsp
    exact BitVec.add_sub_cancel s.sp 1
  · refine OnlyChanges.trans (rs := [.pc, .sp, .stack (fin16 s.sp.toNat)])
      (s.onlyChanges_push_jumpTo (s.pc + 2) (zextAddr nnn)) (State.onlyChanges_pop_jumpTo _ _)
      (List.Subset.refl _) (by simp) p ?_
    simpa [hpsp] using hp

/-! ### A block stored, then loaded or fetched -/

theorem notMem_pc_regParts {x : Reg} {p : Part} (hpc : p ≠ .pc) (hv : ∀ r, p ≠ .v r) : p ∉ .pc :: regParts x := by
  simp only [regParts, List.mem_cons, List.mem_map, not_or, not_exists, not_and]
  exact ⟨hpc, fun k _ => (hv (fin16 k)).symm⟩

/-- What a block store in range leaves: the registers in memory, I as it was, and pc at the next instruction. -/
theorem blockStored {x : Reg} {s t : State} (hin : s.i.toNat + x.val ≤ 0xFFF) (h : exec (.ldMemVx x) s = .next t) :
    (∀ r : Reg, r ≤ x → t.mem.read (s.i.toNat + r.val) = s.readV r) ∧ t.i = s.i ∧ t.pc = s.pc + 2 := by
  obtain ⟨t', hexec, hread, hpc, hframe⟩ := (blockStoreStoresV0ToVx x s).1 hin
  cases hexec.symm.trans h
  exact ⟨hread, hframe .i (by simp [memParts]), hpc⟩

/-- Settles O39: pc and V0 to Vx are no part of the block or of its address. -/
theorem blockStoreThenLoadRestores : Obligations.BlockStoreThenLoadRestores := by
  intro x s t u hin hstore hbetween
  obtain ⟨hread, hti, -⟩ := blockStored hin hstore
  have hui : u.i = s.i := Eq.trans (hbetween .i (notMem_pc_regParts nofun nofun)) hti
  refine ⟨_, exec_ldVxMem_of_le (by rw [hui]; exact hin), ?_, fun r hr => ?_⟩
  · rw [State.blockLoaded, State.fallThrough_i, State.writeVs_i, hui]
  · rw [u.readV_blockLoaded hr, hui, ← hread r hr]
    exact hbetween (.mem _) (notMem_pc_regParts nofun nofun)

/-- Settles O40: the next fetch reads the first two bytes of the block. -/
theorem storedBytesAreFetchedNext : Obligations.StoredBytesAreFetchedNext := by
  intro x s t hi hin hx hstore
  obtain ⟨hread, -, hpc⟩ := blockStored hin hstore
  have hpci : t.pc = s.i := hpc.trans hi.symm
  have hfirst : t.mem.read s.i.toNat = s.readV 0 := hread 0 (Fin.zero_le x)
  have hsecond : t.mem.read (s.i.toNat + 1) = s.readV 1 := hread 1 hx
  rw [State.fetch_of_pc_le (by rw [hpci]; omega), hpci, hfirst, hsecond]

/-! ### The same sprite twice -/

theorem Display.ext_lit {d e : Display} (h : ∀ x y, d.lit x y = e.lit x y) : d = e :=
  Vector.ext fun y hy => Vector.ext fun x hx => h ⟨x, hx⟩ ⟨y, hy⟩

/-- With x and y not F a draw leaves the sprite where it was. -/
theorem State.underSprite_spriteDrawn_iff {s : State} {x y : Reg} (n : Nibble) (hx : x ≠ vF) (hy : y ≠ vF)
    (cx : Fin 64) (cy : Fin 32) : (s.spriteDrawn x y n).UnderSprite x y n cx cy ↔ s.UnderSprite x y n cx cy := by
  have hreg : ∀ {r : Reg}, r ≠ vF → (s.spriteDrawn x y n).readV r = s.readV r := fun hr =>
    s.same_spriteDrawn x y n (p := .v _) nofun (fun e => hr (Part.v.inj e)) nofun
  unfold State.UnderSprite
  rw [hreg hx, hreg hy]
  rfl

/-- Settles O44: a cell under the sprite is inverted twice, and was lit before the second draw exactly when it was
unlit before the first. -/
theorem drawingTwiceRestoresTheDisplay : Obligations.DrawingTwiceRestoresTheDisplay := by
  intro x y n s hx hy hin
  refine ⟨_, _, exec_drw_of_inRange hin, exec_drw_of_inRange hin, Display.ext_lit fun cx cy => ?_, ?_⟩
  · by_cases hunder : s.UnderSprite x y n cx cy
    · rw [State.spriteDrawn_disp,
        State.lit_drawn_of_underSprite ((State.underSprite_spriteDrawn_iff n hx hy cx cy).mpr hunder),
        State.spriteDrawn_disp, State.lit_drawn_of_underSprite hunder, Bool.not_not]
    · rw [State.spriteDrawn_disp,
        State.lit_drawn_of_not_underSprite (mt (State.underSprite_spriteDrawn_iff n hx hy cx cy).mp hunder),
        State.spriteDrawn_disp, State.lit_drawn_of_not_underSprite hunder]
  · rw [State.readV_vF_spriteDrawn, flagByte_eq_one_iff, State.collided_drawn_iff]
    refine exists_congr fun cx => exists_congr fun cy => ?_
    rw [State.underSprite_spriteDrawn_iff n hx hy, State.spriteDrawn_disp]
    by_cases hunder : s.UnderSprite x y n cx cy
    · simp [hunder, State.lit_drawn_of_underSprite hunder]
    · simp [hunder, State.lit_drawn_of_not_underSprite hunder]

/-! ### RND -/

theorem State.onlyChanges_afterDraw (s : State) : OnlyChanges [.rngDraws] s s.afterDraw := by
  intro p hp
  cases p with
  | rngDraws => exact absurd (List.mem_singleton_self _) hp
  | _ => rfl

theorem exec_rnd (x : Reg) (kk : Byte) (s : State) :
    exec (.rnd x kk) s = .next (s.afterDraw.writeV x (s.nextDraw &&& kk)).fallThrough := rfl

/-- Settles O34: RND is a draw, one write to V[x] and the pc increment. -/
theorem rndMasksAFreshDraw : Obligations.RndMasksAFreshDraw := by
  intro x kk s
  refine ⟨_, exec_rnd x kk s, fun k => ?_, rfl, rfl,
    s.onlyChanges_afterDraw.trans (s.afterDraw.onlyChanges_writeV_fallThrough x _) (by simp) (by simp)⟩
  rw [State.readV_fallThrough, State.readV_writeV_self, BitVec.getLsbD_and]
  rfl

end Sys2Proof.Machine
end

section
/-! The wait for a key, the timers' counts, and frames and `advance` seen from outside (44_keyboard_timers.md R213;
60_exceptions.md R243 to R250), and the outputs (R257, R258). -/

namespace Sys2Proof.Machine

/-! ### The wait for a key (44_keyboard_timers.md R206, R213) -/

theorem step_of_waiting {s : State} {x : Reg} (h : s.wait = some x) : step s = .next s :=
  step_of_not_runs fun ⟨_, _, hnone⟩ => absurd (h.symm.trans hnone) nofun

/-- A step of a running core that starts a wait is Fx0A: it writes `wait` alone. -/
theorem eq_withWait_of_step {s t : State} {x : Reg} (hruns : s.Runs) (hstep : step s = .next t)
    (hwait : t.wait = some x) : t = { s with wait := some x } := by
  have ⟨_, _, hnone⟩ := hruns
  rcases step_next_of_runs hruns hstep with ⟨kind, -, rfl⟩ | ⟨i, -, -, rfl⟩
  · exact absurd (hwait.symm.trans hnone) nofun
  · by_cases hldVxK : ∃ y, i = .ldVxK y
    · obtain ⟨y, rfl⟩ := hldVxK
      cases hwait
      rfl
    · have hsame := s.completed_wait fun y hi => hldVxK ⟨y, hi⟩
      exact absurd (hwait.symm.trans (hsame.trans hnone)) nofun

/-- The wait, pc and the registers are as they were. -/
def State.KeepsWait (s t : State) : Prop := t.wait = s.wait ∧ t.pc = s.pc ∧ t.v = s.v

theorem State.KeepsWait.refl (s : State) : s.KeepsWait s := ⟨rfl, rfl, rfl⟩

theorem State.KeepsWait.trans {s t u : State} : s.KeepsWait t → t.KeepsWait u → s.KeepsWait u :=
  fun ⟨hwait, hpc, hv⟩ ⟨hwait', hpc', hv'⟩ => ⟨hwait'.trans hwait, hpc'.trans hpc, hv'.trans hv⟩

theorem keepsWait_of_frame {c : Config} {s t : State} (hwait : s.wait ≠ none) (h : frame c s = .next t) :
    s.KeepsWait t := by
  have hover : (s.frameTick c).budgetOver = true := by simp [State.budgetOver, Option.isSome_iff_ne_none, hwait]
  unfold frame at h
  split at h
  next =>
    cases h
    exact .refl _
  next =>
    cases (runBudget_of_budgetOver c.ipt hover).symm.trans h
    exact ⟨s.frameTick_wait c, s.frameTick_pc c, s.frameTick_v c⟩

theorem keepsWait_of_runFrames {c : Config} {k : Nat} {s t : State} (hwait : s.wait ≠ none)
    (h : runFrames c k s = .next t) : s.KeepsWait t := by
  induction k generalizing s with
  | zero =>
    cases h
    exact .refl _
  | succ n ih =>
    obtain ⟨u, hframe, hrest⟩ := andThen_eq_next h
    have hsu : s.KeepsWait u := keepsWait_of_frame (s := { s with lag := s.lag - c.tickPeriod }) hwait hframe
    exact hsu.trans (ih (by rw [hsu.1]; exact hwait) hrest)

/-- A key event that is not refused has a key's number, and its effect. -/
theorem exists_key_of_withKey {k : Nat} {f : Key → State} {t : State} {q : Reply} (h : withKey k f = .next (t, q)) :
    ∃ j : Key, k = j.val ∧ t = f j := by
  rcases Nat.lt_or_ge 15 k with hgt | hle
  · cases (withKey_of_gt hgt f).symm.trans h
  · exact ⟨fin16 k, (fin16_val_of_lt (by omega)).symm, eq_of_withKey h⟩

/-- An event keeps a wait, or ends it: a load, or a key that completes the capture. -/
theorem keepsWait_or_ends {c : Config} {e : Event} {s t : State} {q : Reply} (hwait : s.wait ≠ none)
    (he : applyEvent c e s = .next (t, q)) :
    s.KeepsWait t ∨ (t.wait = none ∧ ((∃ rom, e = .load rom) ∨
      ∃ k : Key, e = .keyDown k.val ∧ s.keyDown? k = false ∧ s.paused = false ∧ s.fault = none)) := by
  cases e with
  | load rom =>
    rcases Nat.lt_or_ge maxRom rom.length with hlong | hfits
    · cases (applyEvent_load_of_error (s.load_of_too_long c hlong)).symm.trans he
      exact .inl (.refl s)
    · cases (applyEvent_load_of_ok (s.load_of_fits c hfits)).symm.trans he
      exact .inr ⟨rfl, .inl ⟨rom, rfl⟩⟩
  | frame => exact .inl (keepsWait_of_frame hwait (eq_next_of_reply he))
  | advance elapsed =>
    exact .inl (keepsWait_of_runFrames (s := { s with lag := s.lag + elapsed }) hwait (eq_next_of_reply he))
  | keyDown k =>
    obtain ⟨j, rfl, rfl⟩ := exists_key_of_withKey he
    rcases s.keyDown_cases j with ⟨x, -, hpaused, hfault, hup, hdown⟩ | hdown
    · rw [hdown]
      exact .inr ⟨rfl, .inr ⟨j, rfl, hup, hpaused, hfault⟩⟩
    · rw [hdown]
      exact .inl ⟨rfl, rfl, rfl⟩
  | keyUp k =>
    rw [eq_of_withKey he]
    exact .inl ⟨rfl, rfl, rfl⟩
  | pauseToggle =>
    cases he
    exact .inl ⟨rfl, rfl, rfl⟩

/-- Settles O49: Fx0A writes `wait` alone, a waiting core's step is nothing, and a key completes the capture. -/
theorem waitEndsOnlyWithAKey : Obligations.WaitEndsOnlyWithAKey := by
  refine ⟨fun s t x k hruns hstep hwait => ⟨step_of_waiting hwait, fun hup => ?_⟩,
    fun s x hwait => step_of_waiting hwait, fun c e s t q x hwait he => ?_⟩
  · cases eq_withWait_of_step hruns hstep hwait
    obtain ⟨hfault, hpaused, -⟩ := hruns
    rw [State.keyDown_of_capture hwait hpaused hfault hup]
    refine ⟨⟨hfault, hpaused, rfl⟩, ?_, rfl⟩
    rw [State.readV_captured_self, keyByte_toNat]
  · rcases keepsWait_or_ends (by simp [hwait]) he with ⟨hkeep, hpc, hv⟩ | hends
    · exact .inl ⟨hkeep.trans hwait, hpc, State.readV_congr hv⟩
    · exact .inr hends

/-! ### The timers (60_exceptions.md R243) -/

/-- Settles O51: each tick takes one off, floored at zero. -/
theorem timerReachesZeroAfterItsCount : Obligations.TimerReachesZeroAfterItsCount := by
  intro s k
  induction k with
  | zero => exact ⟨rfl, rfl⟩
  | succ n ih =>
    obtain ⟨hdt, hst⟩ := ih
    rw [Function.iterate_succ_apply', State.tickTimers_dt, State.tickTimers_st, countDown_toNat, countDown_toNat, hdt,
      hst]
    exact ⟨Nat.sub_sub .., Nat.sub_sub ..⟩

/-! ### The budget of a frame (R245, R246) -/

theorem State.runs_of_budget {s : State} (hpaused : s.paused = false) (h : ¬ s.budgetOver = true) : s.Runs := by
  obtain ⟨hwait, hfault⟩ : s.wait = none ∧ s.fault = none := by simpa [State.budgetOver] using h
  exact ⟨hfault, hpaused, hwait⟩

theorem paused_of_step {s t : State} (h : step s = .next t) : t.paused = s.paused := by
  by_cases hruns : s.Runs
  · rcases step_next_of_runs hruns h with ⟨kind, -, rfl⟩ | ⟨i, -, -, rfl⟩
    · rfl
    · exact s.completed_paused i
  · cases (step_of_not_runs hruns).symm.trans h
    rfl

/-- The loop of R245 as a run of the host's: how many steps it makes, why it ends, and that the core ran before each. -/
theorem runBudget_eq_run {k : Nat} {s t : State} (hpaused : s.paused = false) (h : runBudget k s = .next t) :
    ∃ m, m ≤ k ∧ Host.Core.run Sys2Proof.core m s = .next t ∧ (m = k ∨ t.wait ≠ none ∨ t.fault ≠ none) ∧
      ∀ j u, j < m → Host.Core.run Sys2Proof.core j s = .next u → u.Runs := by
  induction k generalizing s with
  | zero => exact ⟨0, Nat.le_refl 0, h, .inl rfl, fun j u hj => absurd hj (Nat.not_lt_zero j)⟩
  | succ n ih =>
    unfold runBudget at h
    split at h
    next hover =>
      have hends : s.wait ≠ none ∨ s.fault ≠ none := by simpa [State.budgetOver, Option.isSome_iff_ne_none] using hover
      cases h
      exact ⟨0, Nat.zero_le _, rfl, .inr hends, fun j u hj => absurd hj (Nat.not_lt_zero j)⟩
    next hgoes =>
      obtain ⟨v, hstep, hrest⟩ := andThen_eq_next h
      obtain ⟨m, hm, hrun, hends, hran⟩ := ih ((paused_of_step hstep).trans hpaused) hrest
      have hsucc : ∀ j, Host.Core.run Sys2Proof.core (j + 1) s = Host.Core.run Sys2Proof.core j v := fun j => by
        rw [core_run_succ, hstep]
        rfl
      refine ⟨m + 1, Nat.succ_le_succ hm, (hsucc m).trans hrun, hends.imp_left (congrArg (· + 1)), fun j u hj hu => ?_⟩
      cases j with
      | zero =>
        cases hu
        exact State.runs_of_budget hpaused hgoes
      | succ j => exact hran j u (Nat.lt_of_succ_lt_succ hj) ((hsucc j).symm.trans hu)

/-- Settles O53: a running core's frame ticks, and its budget is a run. -/
theorem frameTicksThenSpendsItsBudget : Obligations.FrameTicksThenSpendsItsBudget := by
  intro c s t ⟨hfault, hpaused, hwait⟩ h
  have htick : s.frameTick c = s.tickTimers := by simp [State.frameTick, hwait]
  rw [frame_of_active hfault hpaused, htick] at h
  exact runBudget_eq_run (s := s.tickTimers) hpaused h

/-! ### Steps and frames do not read the accumulator -/

/-- The state with another accumulator. -/
def State.withLag (s : State) (l : Nat) : State := { s with lag := l }

/-- The result with another accumulator in its state. -/
def Result.withLag (r : Result) (l : Nat) : Result := Result.andThen r fun t => .next (t.withLag l)

theorem exec_withLag (i : Instr) (s : State) (l : Nat) : exec i (s.withLag l) = Result.withLag (exec i s) l := by
  cases i <;> exact exec_commutes (f := fun s => s.withLag l) rfl rfl rfl fun _ _ => rfl

theorem step_withLag (s : State) (l : Nat) : step (s.withLag l) = Result.withLag (step s) l := by
  have hidle : (s.withLag l).idle = s.idle := rfl
  have hfetch : (s.withLag l).fetchDecode = s.fetchDecode := rfl
  unfold step
  rw [hidle, hfetch]
  split
  · rfl
  · split
    · rfl
    · exact exec_withLag _ s l

theorem withLag_andThen {r : Result} {f : State → Result} {l : Nat}
    (h : ∀ t : State, f (t.withLag l) = Result.withLag (f t) l) :
    Result.andThen (Result.withLag r l) f = Result.withLag (Result.andThen r f) l := by
  cases r with
  | next t => exact h t
  | fault e => rfl
  | refused e => rfl

theorem runBudget_withLag (k : Nat) (s : State) (l : Nat) :
    runBudget k (s.withLag l) = Result.withLag (runBudget k s) l := by
  induction k generalizing s with
  | zero => rfl
  | succ n ih =>
    have hover : (s.withLag l).budgetOver = s.budgetOver := rfl
    unfold runBudget
    rw [hover, step_withLag, withLag_andThen ih]
    split <;> rfl

theorem State.frameTick_withLag (c : Config) (s : State) (l : Nat) :
    (s.withLag l).frameTick c = (s.frameTick c).withLag l := by
  have hwait : (s.withLag l).wait = s.wait := rfl
  unfold State.frameTick
  rw [hwait]
  split <;> rfl

theorem frame_withLag (c : Config) (s : State) (l : Nat) : frame c (s.withLag l) = Result.withLag (frame c s) l := by
  have hidle : ((s.withLag l).fault.isSome || (s.withLag l).paused) = (s.fault.isSome || s.paused) := rfl
  unfold frame
  rw [hidle, State.frameTick_withLag, runBudget_withLag]
  split <;> rfl

/-! ### An `advance` is its frames, then the accumulator (R247, R248) -/

/-- `k` frames one after another, the accumulator left alone. -/
def frames (c : Config) (k : Nat) (s : State) : Result :=
  match k with
  | 0 => .next s
  | n + 1 => Result.andThen (frame c s) (frames c n)

theorem frames_withLag (c : Config) (k : Nat) (s : State) (l : Nat) :
    frames c k (s.withLag l) = Result.withLag (frames c k s) l := by
  induction k generalizing s with
  | zero => rfl
  | succ n ih => rw [frames, frame_withLag, withLag_andThen ih, frames]

theorem andThen_assoc (r : Result) (f g : State → Result) :
    Result.andThen (Result.andThen r f) g = Result.andThen r fun s => Result.andThen (f s) g := by
  cases r <;> rfl

theorem frames_add (c : Config) (j k : Nat) (s : State) :
    frames c (j + k) s = Result.andThen (frames c j s) (frames c k) := by
  induction j generalizing s with
  | zero => rw [Nat.zero_add]; rfl
  | succ n ih =>
    rw [Nat.succ_add, frames, frames, andThen_assoc]
    exact andThen_congr fun t _ => ih t

theorem withLag_withLag (r : Result) (l m : Nat) : Result.withLag (Result.withLag r l) m = Result.withLag r m := by
  cases r <;> rfl

/-- The turns of R247's loop take their periods off the accumulator, which the frames do not see. -/
theorem runFrames_eq_frames (c : Config) (k : Nat) (s : State) :
    runFrames c k s = Result.withLag (frames c k s) (s.lag - k * c.tickPeriod) := by
  induction k generalizing s with
  | zero => rw [Nat.zero_mul]; rfl
  | succ n ih =>
    have hturn : frame c { s with lag := s.lag - c.tickPeriod } =
        Result.withLag (frame c s) (s.lag - c.tickPeriod) := frame_withLag c s _
    have hlag : s.lag - c.tickPeriod - n * c.tickPeriod = s.lag - (n + 1) * c.tickPeriod := by
      rw [Nat.sub_sub, Nat.succ_mul, Nat.add_comm]
    rw [runFrames, hturn, frames]
    cases hframe : frame c s with
    | next t =>
      calc runFrames c n (t.withLag (s.lag - c.tickPeriod))
          = Result.withLag (frames c n (t.withLag (s.lag - c.tickPeriod)))
              (s.lag - c.tickPeriod - n * c.tickPeriod) := ih _
        _ = Result.withLag (frames c n t) (s.lag - (n + 1) * c.tickPeriod) := by
          rw [frames_withLag, withLag_withLag, hlag]
    | fault e => rfl
    | refused e => rfl

/-- An `advance` makes the frames that are due and leaves the rest of the accumulator. -/
theorem advance_eq_frames (c : Config) (e : Nat) (s : State) :
    advance c e s = Result.withLag (frames c ((s.lag + e) / c.tickPeriod) s) ((s.lag + e) % c.tickPeriod) := by
  have hrest : s.lag + e - (s.lag + e) / c.tickPeriod * c.tickPeriod = (s.lag + e) % c.tickPeriod := by
    rw [Nat.mul_comm, Nat.mod_eq_sub]
  calc advance c e s
      = Result.withLag (frames c ((s.lag + e) / c.tickPeriod) (s.withLag (s.lag + e)))
          (s.lag + e - (s.lag + e) / c.tickPeriod * c.tickPeriod) := runFrames_eq_frames c _ _
    _ = _ := by rw [frames_withLag, withLag_withLag, hrest]

/-- Periods counted in two parts: those of the first part, and those of its rest with the second. -/
theorem add_div_eq_div_add_mod_div (a b : Nat) {p : Nat} (hp : 0 < p) : (a + b) / p = a / p + (a % p + b) / p := by
  rw [← Nat.mul_add_div hp, ← Nat.add_assoc, Nat.div_add_mod]

/-- Settles O55: the frames of the two parts are the frames of the whole, and so is the rest of the accumulator. -/
theorem advanceDoesNotDependOnTheSplit : Obligations.AdvanceDoesNotDependOnTheSplit := by
  intro c d e s t h
  rw [advance_eq_frames] at h
  obtain ⟨u, hframes, hlag⟩ := andThen_eq_next h
  cases hlag
  refine ⟨?_, rfl⟩
  rw [advance_eq_frames, advance_eq_frames, ← Nat.add_assoc, add_div_eq_div_add_mod_div (s.lag + d) e c.tickPeriod_pos,
    frames_add, hframes, frames_withLag, withLag_withLag]
  exact congrArg _ (Nat.mod_add_mod ..)

/-! ### The pause toggle (R250) -/

theorem State.onlyChanges_pauseToggle (s : State) : OnlyChanges [.paused] s s.pauseToggle := by
  intro p hp
  cases p with
  | paused => exact absurd (List.mem_singleton_self _) hp
  | _ => rfl

theorem State.pauseToggle_pauseToggle (s : State) : s.pauseToggle.pauseToggle = s := by
  have hpaused : s.pauseToggle.pauseToggle.paused = s.paused := Bool.not_not s.paused
  calc s.pauseToggle.pauseToggle = { s with paused := s.pauseToggle.pauseToggle.paused } := rfl
    _ = s := by rw [hpaused]

/-- Settles O56: the toggle is one write to `paused`, an involution. -/
theorem pauseToggleChangesOnlyPaused : Obligations.PauseToggleChangesOnlyPaused := fun s =>
  ⟨rfl, s.onlyChanges_pauseToggle, s.pauseToggle_pauseToggle⟩

/-! ### Status and sound (R257, R258; 10_state.md R27) -/

theorem State.status_of_fault {s : State} {r : FaultRecord} (h : s.fault = some r) : s.status = .faulted r := by
  simp [State.status, h]

theorem State.status_of_paused {s : State} (hfault : s.fault = none) (h : s.paused = true) : s.status = .paused := by
  simp [State.status, hfault, h]

theorem State.status_of_waiting {s : State} {x : Reg} (hfault : s.fault = none) (hpaused : s.paused = false)
    (h : s.wait = some x) : s.status = .awaitingKey x := by
  simp [State.status, hfault, hpaused, h]

theorem State.status_of_runs {s : State} (h : s.Runs) : s.status = .running := by
  obtain ⟨hfault, hpaused, hwait⟩ := h
  simp [State.status, hfault, hpaused, hwait]

/-- Settles O58: the status takes the fault first, then the pause, then the wait; one of the four cases holds. -/
theorem keyNumbersAndOutputs : Obligations.KeyNumbersAndOutputs := by
  refine ⟨fun c s k hk => ⟨withKey_of_gt hk _, withKey_of_gt hk _⟩, fun s => ?_⟩
  have hsound : s.soundOn = true ↔ s.st.toNat ≠ 0 := by simp [State.soundOn, ← BitVec.toNat_inj]
  cases hfault : s.fault with
  | some r => simp [State.status_of_fault hfault, State.Runs, hfault, hsound]
  | none =>
    cases hpaused : s.paused with
    | true => simp [State.status_of_paused hfault hpaused, State.Runs, hpaused, hsound]
    | false =>
      cases hwait : s.wait with
      | some x => simp [State.status_of_waiting hfault hpaused hwait, State.Runs, hwait, hsound]
      | none => simp [State.status_of_runs ⟨hfault, hpaused, hwait⟩, State.Runs, hfault, hpaused, hwait, hsound]

end Sys2Proof.Machine
end
